-- ==== Sys2Proof/Word.lean ====
section
/-! DEFINITION. The word types of the doubler: a byte, the 128-bit tweak value and the 3-bit control word.
All of them are unsigned bit-vectors whose bit 0 is the least significant (R8). -/

namespace Sys2Proof

/-- One byte of a tweak; bit 7 is its high bit (R29). -/
abbrev Byte := BitVec 8

/-- A tweak as a 128-bit value (R7, R15). -/
abbrev Tweak := BitVec 128

/-- A tweak as the source holds it: 16 bytes, byte 0 first (R28). -/
abbrev TweakBytes := Vector Byte 16

/-- The control word `CW[2:0] = {rst, cmd[1], cmd[0]}` (R40, R41). -/
abbrev CtrlWord := BitVec 3

end Sys2Proof
end

