-- ==== Sys2Proof/Machine/Ports.lean ====
section
/-! DEFINITION. The input side of the block: logic levels, the input ports, and what the host does
at them and between edges (R11, R20, R22, R46). -/

namespace Sys2Proof

/-- What an input bit can be at a sampling edge.
The last three are the ways R46 names in which a bit is not a clean 0 or 1.
DEDUCED (log 6, safe): no other level exists at an edge. -/
inductive Level where
  | low
  | high
  /-- Unknown (X). -/
  | unknown
  /-- High-impedance (Z). -/
  | highZ
  /-- Changing inside the setup and hold window (R93). -/
  | unstable
  deriving DecidableEq, Repr

/-- The bit that a clean level carries. -/
def Level.bit? : Level → Option Bool
  | .low => some false
  | .high => some true
  | .unknown => none
  | .highZ => none
  | .unstable => none

/-- The level that drives a bit. -/
def Level.ofBit : Bool → Level
  | false => .low
  | true => .high

/-- A clean 0 or 1 (R46). -/
def Level.clean (l : Level) : Bool := l.bit?.isSome

/-- The input ports that an edge samples (R20). -/
inductive InputPort where
  | rst
  | cmd
  | din
  deriving DecidableEq, Repr

/-- The 128 levels of the port `din`; index j is the bit `din[j]`. -/
abbrev DinLevels := Vector Level 128

/-- The levels on the input ports (R20). `clk` is not among them: a rising edge is an event. -/
structure Pins where
  rst : Level
  cmd1 : Level
  cmd0 : Level
  din : DinLevels
  deriving DecidableEq, Repr

/-- Every input bit unknown: nobody drives the block. -/
def Pins.undriven : Pins :=
  { rst := .unknown, cmd1 := .unknown, cmd0 := .unknown, din := Vector.replicate 128 .unknown }

/-- One act of the outside world on the block (R11, R84, R85, R87).
DESIGN CHOICE (log 1, safe): the outside world is a script of such acts. -/
inductive HostEvent where
  /-- The host changes the levels on the input ports, which it may do freely between edges (R22). -/
  | drive (p : Pins)
  /-- A rising edge of `clk`: the ports are sampled and one operation happens (R40). -/
  | edge
  /-- The host looks at `tout`, `tv` or `red` (R35). -/
  | look
  /-- The host takes `tout` as a tweak (R95). -/
  | takeTweak
  /-- The block is powered up: at the start of a run, or again by a power cycle (R84, R87). -/
  | powerUp
  deriving DecidableEq, Repr

end Sys2Proof
end

