-- ==== Sys2Proof/Machine/Operands.lean ====
section
/-! DEFINITION. How the 16 bytes of a tweak lie in its 128-bit value and on the ports `din` and `tout`,
and how an edge reads the operand from the levels on `din` (R28 to R32, R43). -/

namespace Sys2Proof.Machine

/-- Byte i of a value: bits 8i+7 down to 8i (R28, R30). -/
def byteOf (x : Tweak) (i : Nat) : Byte := x.extractLsb' (8 * i) 8

/-- The 16 bytes of a value, byte 0 first (R28). -/
def bytesOfTweak (x : Tweak) : TweakBytes := Vector.ofFn fun i => byteOf x i

/-- The value of 16 bytes: byte 15 is the most significant (R28). -/
def tweakOfBytes (b : TweakBytes) : Tweak :=
  b[15] ++ b[14] ++ b[13] ++ b[12] ++ b[11] ++ b[10] ++ b[9] ++ b[8] ++
    b[7] ++ b[6] ++ b[5] ++ b[4] ++ b[3] ++ b[2] ++ b[1] ++ b[0]

/-- The levels that drive a whole value on `din`. -/
def dinOfTweak (x : Tweak) : DinLevels := Vector.ofFn fun j => Level.ofBit (x.getLsbD j)

/-- The levels on `din` when array byte i of the host is wired to `din[8i+7:8i]` (R30). -/
def dinOfBytes (b : TweakBytes) : DinLevels :=
  Vector.ofFn fun j => Level.ofBit ((b[j.val / 8]'(by omega)).getLsbD (j.val % 8))

/-- Byte i of the word on `din`, which is `din[8i+7:8i]` (R30); a bit of it is 1 when its level is high. -/
def byteOnDin (d : DinLevels) (i : Fin 16) : Byte :=
  BitVec.ofFnLE fun j : Fin 8 => decide (d[8 * i.val + j.val] = .high)

/-- The operand on `din` when all 128 bits are clean (R34, R43, R46). -/
def operandOnDin? (d : DinLevels) : Option Tweak :=
  if d.toList.all Level.clean then some (tweakOfBytes (Vector.ofFn (byteOnDin d))) else none

end Sys2Proof.Machine
end

