-- ==== Sys2Proof/Machine/AsmSyntax.lean ====
section
/-! DEFINITION. The statements of the spec's own notation for command sequences (R48 to R51). -/

namespace Sys2Proof

/-- A `<value>` as written (R49). -/
inductive AsmValue where
  /-- `0x` and hexadecimal digits, most significant digit first. -/
  | hex (digits : List (Fin 16))
  /-- A byte list `[b0 b1 ... b15]`, byte 0 first. -/
  | bytes (bs : List Byte)
  deriving DecidableEq, Repr

/-- A statement of a command sequence: the five commands (R48) and the three pseudo-instructions (R50, R51). -/
inductive AsmStmt where
  | rst
  | nop
  | dbl
  | ld (v : AsmValue)
  | ldd (v : AsmValue)
  /-- `DBL*k` -/
  | dblTimes (k : Nat)
  /-- `NOP*k` -/
  | nopTimes (k : Nat)
  /-- `TWK <value>, n` -/
  | twk (v : AsmValue) (n : Nat)
  deriving DecidableEq, Repr

end Sys2Proof
end

