-- ==== Sys2Proof/Syntax.lean ====
section
/-! DEFINITION. The five operations of the control word, one constructor per row of the opcode table. -/

namespace Sys2Proof

/-- An operation that one rising edge can decode to (R40), with the operand it samples (R43).
No other operation has an operand: no immediate and no register number exists (R44). -/
inductive Instr where
  /-- RESET, `CW = 1xx` (R86). -/
  | rst
  /-- Hold, `CW = 000` (R69). -/
  | nop
  /-- Double the tweak register, `CW = 001` (R70). -/
  | dbl
  /-- Load the tweak on `din`, `CW = 010` (R71). -/
  | ld (din : Tweak)
  /-- Load the double of the tweak on `din`, `CW = 011` (R72). -/
  | ldd (din : Tweak)
  deriving DecidableEq, Repr

end Sys2Proof
end

