-- ==== Sys2Proof/WellFormed.lean ====
section
/-! DEFINITION. What is well formed: every instruction (R45); the levels an edge may sample (R46); the
values and statements of the notation (R49 to R51). -/

namespace Sys2Proof

/-- Every operation with every operand is legal: "all 2^128 of them are valid tweaks" (R45). -/
def Instr.wellFormed : Instr → Bool
  | .rst => true
  | .nop => true
  | .dbl => true
  | .ld _ => true
  | .ldd _ => true

/-- The edge samples `din`: the operation is LD or LDD, which is `rst` = 0 and `cmd[1]` = 1 (R22, R41). -/
def Pins.samplesDin (p : Pins) : Bool := p.rst == .low && p.cmd1 == .high

/-- Every bit that R46 asks for is a clean 0 or 1: `rst` and `cmd` always, `din` where it is sampled. -/
def Pins.wellFormed (p : Pins) : Bool :=
  p.rst.clean && p.cmd1.clean && p.cmd0.clean && (!p.samplesDin || p.din.toList.all Level.clean)

/-- 1 to 32 hexadecimal digits, or exactly sixteen bytes (R49). -/
def AsmValue.wellFormed : AsmValue → Bool
  | .hex digits => decide (1 ≤ digits.length) && decide (digits.length ≤ 32)
  | .bytes bs => decide (bs.length = 16)

/-- Counts are at least 1 (R50, R51) and values are well formed. -/
def AsmStmt.wellFormed : AsmStmt → Bool
  | .rst => true
  | .nop => true
  | .dbl => true
  | .ld v => v.wellFormed
  | .ldd v => v.wellFormed
  | .dblTimes k => decide (1 ≤ k)
  | .nopTimes k => decide (1 ≤ k)
  | .twk v n => v.wellFormed && decide (1 ≤ n)

end Sys2Proof
end

