-- ==== Sys2Proof/Decode.lean ====
section
/-! DEFINITION. From the levels that an edge samples to the operation it performs (R40 to R47), and back.
The decoder is total on any levels and refuses, by the name of the port, a bit that is not a clean 0 or 1. -/

namespace Sys2Proof

/-- The operation that a control word selects (R40). -/
inductive Operation where
  | reset
  | nop
  | dbl
  | ld
  | ldd
  deriving DecidableEq, Repr

/-- Decode the three bits (R40). `rst` has priority over `cmd` (R42); then `cmd[1]` = 1 means load and
`cmd[0]` = 1 means apply Double (R41). -/
def decodeCW (cw : CtrlWord) : Operation :=
  match cw.getLsbD 2, cw.getLsbD 1, cw.getLsbD 0 with
  | true, _, _ => .reset
  | false, false, false => .nop
  | false, false, true => .dbl
  | false, true, false => .ld
  | false, true, true => .ldd

/-- The control word `{rst, cmd[1], cmd[0]}` from its bits (R40). -/
def ctrlWord (rst cmd1 cmd0 : Bool) : CtrlWord :=
  BitVec.ofBool rst ++ BitVec.ofBool cmd1 ++ BitVec.ofBool cmd0

/-- Sample the control word; `rst` and both bits of `cmd` must be clean (R46, R93).
DEDUCED (log 4, safe): this holds for `cmd` beside `rst` = 1 too, since R46 excepts only bits of `din`.
DESIGN CHOICE (log 5, safe): the first unclean port in the order `rst`, `cmd`, `din` is the one named. -/
def Pins.sampleCW (p : Pins) : Except InputPort CtrlWord :=
  match p.rst.bit?, p.cmd1.bit?, p.cmd0.bit? with
  | none, _, _ => .error .rst
  | some _, none, _ => .error .cmd
  | some _, some _, none => .error .cmd
  | some r, some c1, some c0 => .ok (ctrlWord r c1 c0)

/-- Sample all 128 bits of `din` (R34, R43, R46). -/
def Pins.sampleDin (p : Pins) : Except InputPort Tweak :=
  match Machine.operandOnDin? p.din with
  | none => .error .din
  | some x => .ok x

/-- The operation with its operand. `din` is looked at only when the operation is LD or LDD (R22). -/
def decode (p : Pins) : Except InputPort Instr :=
  match p.sampleCW with
  | .error port => .error port
  | .ok cw =>
    match decodeCW cw with
    | .reset => .ok .rst
    | .nop => .ok .nop
    | .dbl => .ok .dbl
    | .ld => p.sampleDin.map Instr.ld
    | .ldd => p.sampleDin.map Instr.ldd

/-- The control word of an instruction; that of RST has `cmd` = 00 (R48). -/
def encodeCW : Instr → CtrlWord
  | .rst => 0b100#3
  | .nop => 0b000#3
  | .dbl => 0b001#3
  | .ld _ => 0b010#3
  | .ldd _ => 0b011#3

/-- The operand that an instruction carries on `din`, if any (R43). -/
def Instr.operand? : Instr → Option Tweak
  | .rst => none
  | .nop => none
  | .dbl => none
  | .ld x => some x
  | .ldd x => some x

/-- The levels on the ports for a control word and the levels of `din`. -/
def Pins.ofCW (cw : CtrlWord) (din : DinLevels) : Pins :=
  { rst := Level.ofBit (cw.getLsbD 2)
    cmd1 := Level.ofBit (cw.getLsbD 1)
    cmd0 := Level.ofBit (cw.getLsbD 0)
    din := din }

/-- The levels that present an instruction to the block. Where `din` is a don't-care (R22) it
carries whatever `idle` says, clean or not. -/
def encode (i : Instr) (idle : DinLevels) : Pins :=
  Pins.ofCW (encodeCW i) ((i.operand?.map Machine.dinOfTweak).getD idle)

/-- One row of the decode table of R40: the word matches when its bits under `mask` are those of `bits`. -/
structure OpcodeRow where
  mnemonic : String
  mask : CtrlWord
  bits : CtrlWord
  operation : Operation
  deriving DecidableEq, Repr

/-- The decode table of R40, in the order of the opcode table. -/
def opcodeRows : List OpcodeRow :=
  [ { mnemonic := "RST", mask := 0b100#3, bits := 0b100#3, operation := .reset },
    { mnemonic := "NOP", mask := 0b111#3, bits := 0b000#3, operation := .nop },
    { mnemonic := "DBL", mask := 0b111#3, bits := 0b001#3, operation := .dbl },
    { mnemonic := "LD", mask := 0b111#3, bits := 0b010#3, operation := .ld },
    { mnemonic := "LDD", mask := 0b111#3, bits := 0b011#3, operation := .ldd } ]

/-- The row matches the word. -/
def OpcodeRow.covers (r : OpcodeRow) (cw : CtrlWord) : Bool := cw &&& r.mask == r.bits

/-- The ports for an opcode-table word: the control word in bits 2 to 0 and an operand of zeros on
`din`, which is no part of the word (R41).
DESIGN CHOICE (log 8, safe): a number that is no 3-bit word drives nothing. -/
def tableWordPins (nbits w : Nat) : Pins :=
  if w % 2 ^ nbits < 8 then
    Pins.ofCW (BitVec.ofNat 3 (w % 2 ^ nbits)) (Machine.dinOfTweak 0)
  else Pins.undriven

/-- The instruction that the decoder reads from an opcode-table word. -/
def decodeTableWord (nbits w : Nat) : Option Instr :=
  (decode (tableWordPins nbits w)).toOption

end Sys2Proof
end

