-- ==== Sys2Proof/Config.lean ====
section
/-! DEFINITION. What the spec leaves open about one block: the parameter POWERON_STATE (R87, D5, U1).
Each of its three parts is a constant without a body, applied to the number of power-ups so far, so
that every power-up draws a value that nothing constrains. -/

namespace Sys2Proof

/-- The tweak register's value after the n-th power-up: any 128-bit value (R87). -/
opaque Config.powerOnTweak : Nat → Tweak

/-- The `V` bit after the n-th power-up: in particular not assumed to be 0 (R87). -/
opaque Config.powerOnValid : Nat → Bool

/-- The `RED` bit after the n-th power-up (R87). -/
opaque Config.powerOnReduced : Nat → Bool

end Sys2Proof
end

