-- ==== Sys2Proof/Machine/State.lean ====
section
/-! DEFINITION. The state of the machine: the block's own three elements (R13), the levels that the host
holds on the input ports, what the host does next, and the number of power-ups so far. -/

namespace Sys2Proof.Machine

/-- `t`, `v` and `red` are the block's state, and all of it (R13, R26). `pins` and `host` are the outside
world's: the levels on the input ports (R20) and the host's coming acts, next first (R10, R11).
`draws` is the model's own counter of free values. -/
structure State where
  /-- The tweak register `T` (R15). -/
  t : Tweak
  /-- The status bit `V`, tweak valid (R16). -/
  v : Bool
  /-- The status bit `RED`, reduced (R17). -/
  red : Bool
  /-- The levels on `rst`, `cmd` and `din`. -/
  pins : Pins
  /-- What the host does, next act first. -/
  host : List HostEvent
  /-- How many times the block has been powered up (the argument of `Config.powerOnTweak` and its fellows). -/
  draws : Nat
  deriving DecidableEq, Repr

/-- The one fault of R85. It is no hardware event. -/
inductive Fault where
  /-- The host takes `tout` as a tweak while `tv` = 0 (R95).
  Raised by the event `takeTweak`. Safe: the hardware drives `tout` = `T` and goes on. -/
  | tweakNotLoaded
  deriving DecidableEq, Repr

/-- The refusals. -/
inductive Refusal where
  /-- An instruction without a meaning. Raised by no arm: every instruction has its meaning. Safe. -/
  | notModelled (mnemonic : String)
  /-- A bit of the named port is not a clean 0 or 1 at the edge that samples it (R46).
  Raised by the event `edge`. Safe: nothing can be proved of such a run. -/
  | notBinary (port : InputPort)
  deriving DecidableEq, Repr

/-- The machine right after a RESET edge (R86): `T`, `V` and `RED` are 0.
DESIGN CHOICE (log 2, unsafe): the ports are undriven, the host does nothing more, nothing was powered up. -/
def State.reset : State :=
  { t := 0, v := false, red := false, pins := Pins.undriven, host := [], draws := 0 }

end Sys2Proof.Machine
end

