-- ==== Sys2Proof/Machine/Flags.lean ====
section
/-! DEFINITION. What each command writes into the two status bits (R16, R17, R18). -/

namespace Sys2Proof.Machine

/-- `RED` after Double was applied to a value: its bit 127, the bit shifted out (R17). -/
def redAfterDouble (old : Tweak) : Bool := old.getLsbD 127

/-- `RED` after a plain load (R17). -/
def redAfterLoad : Bool := false

/-- `RED` after RESET (R17, R86). -/
def redAfterReset : Bool := false

/-- `V` after LD and LDD (R16). -/
def validAfterLoad : Bool := true

/-- `V` after RESET (R16, R86). -/
def validAfterReset : Bool := false

end Sys2Proof.Machine
end

