-- ==== Sys2Proof/Machine/GfDouble.lean ====
section
/-! DEFINITION. The function Double, written byte by byte as R53 does ("the only definition of Double in the
spec"), its value form that the commands use, and the inverse that R63 gives as a test aid. -/

namespace Sys2Proof.Machine

/-- The reduction constant, "representing x^7+x^2+x+1" (R56). -/
def reductionConstant : Byte := 0x87#8

/-- The bit that leaves the whole value: bit 7 of byte 15 of the input, before the shift (R57). -/
def outgoingBit (b : TweakBytes) : Bool := (b[15] >>> 7) == 1#8

/-- The carry into byte i: 0 for byte 0, else byte i-1's outgoing carry (R53). -/
def carryIn (b : TweakBytes) (i : Fin 16) : Byte :=
  if i.val = 0 then 0#8 else b[i.val - 1] >>> 7

/-- Byte i after the shift and before the reduction (R53). A byte keeps 8 bits, which is the
spec's `AND 0xFF`. -/
def shiftedByte (b : TweakBytes) (i : Fin 16) : Byte := (b[i] <<< 1) ||| carryIn b i

/-- Double on 16 bytes (R53). -/
def doubleBytes (b : TweakBytes) : TweakBytes :=
  let o : TweakBytes := Vector.ofFn (shiftedByte b)
  if outgoingBit b then o.set 0 (o[0] ^^^ reductionConstant) else o

/-- Double on the 128-bit value (R28, R53). -/
def double (x : Tweak) : Tweak := tweakOfBytes (doubleBytes (bytesOfTweak x))

/-- Halve, the inverse of Double (R63). The block does not implement it: no meaning calls it, and it
stands here as the spec's test aid for statements. -/
def halve (o : Tweak) : Tweak :=
  let c := o.getLsbD 0
  let u := o ^^^ (if c then 0x87#128 else 0#128)
  (u >>> 1) ||| ((BitVec.ofBool c).zeroExtend 128 <<< 127)

end Sys2Proof.Machine
end

