-- ==== Sys2Proof/Machine/Ops.lean ====
section
/-! DEFINITION. The shared operations: writing the registers at an edge, the output ports, and the
host's acts other than an edge. The block takes no exception and returns from none (R73, R77, R78), so
no operation for that stands here. -/

namespace Sys2Proof.Machine

/-- Write all 128 bits of `T` together with `RED` (R34). -/
def State.writeTweak (s : State) (value : Tweak) (reduced : Bool) : State :=
  { s with t := value, red := reduced }

/-- Write `V`. -/
def State.writeValid (s : State) (valid : Bool) : State := { s with v := valid }

/-- The output port `tout` (R21). -/
def State.tout (s : State) : Tweak := s.t

/-- The output port `tv` (R21). -/
def State.tv (s : State) : Bool := s.v

/-- The output port `red` (R21). -/
def State.redOut (s : State) : Bool := s.red

/-- The host's next act is done; the acts after it remain. -/
def State.hostRest (s : State) (rest : List HostEvent) : State := { s with host := rest }

/-- The input ports carry other levels; between edges that is all that happens (R22). -/
def drivePins (p : Pins) (s : State) : Host.Outcome State Fault Refusal :=
  .next { s with pins := p }

/-- Reading an output has no effect on the state (R21, R35). -/
def lookAtOutputs (s : State) : Host.Outcome State Fault Refusal := .next s

/-- The host takes `tout` as a tweak: a fault while `tv` = 0, else a read without effect (R35, R95). -/
def takeTweak (s : State) : Host.Outcome State Fault Refusal :=
  if s.tv then .next s else .fault .tweakNotLoaded

/-- Power-up: the block is in POWERON_STATE, a fresh draw (R84, R87).
DESIGN CHOICE (log 3, safe): it is an act of the script, and leaves the ports and the script alone. -/
def powerUp (s : State) : Host.Outcome State Fault Refusal :=
  .next { s with
    t := Config.powerOnTweak s.draws
    v := Config.powerOnValid s.draws
    red := Config.powerOnReduced s.draws
    draws := s.draws + 1 }

end Sys2Proof.Machine
end

