-- ==== Sys2Proof/Machine/Commands.lean ====
section
/-! DEFINITION. The commands NOP, DBL, LD and LDD (R69 to R72). Each is total and raises nothing (R73). -/

namespace Sys2Proof.Machine

/-- NOP: hold (R69). -/
def execNop (s : State) : Host.Outcome State Fault Refusal := .next s

/-- DBL: double `T`; `RED` takes the bit shifted out of the old `T`; `V` stays, also when it is 0 (R70, D19). -/
def execDbl (s : State) : Host.Outcome State Fault Refusal :=
  .next (s.writeTweak (double s.t) (redAfterDouble s.t))

/-- LD: load the operand as it is (R71). -/
def execLd (din : Tweak) (s : State) : Host.Outcome State Fault Refusal :=
  .next ((s.writeTweak din redAfterLoad).writeValid validAfterLoad)

/-- LDD: load the double of the operand; the old `T` is not read (R72). -/
def execLdd (din : Tweak) (s : State) : Host.Outcome State Fault Refusal :=
  .next ((s.writeTweak (double din) (redAfterDouble din)).writeValid validAfterLoad)

end Sys2Proof.Machine
end

