-- ==== Sys2Proof/Machine/Reset.lean ====
section
/-! DEFINITION. The operation RESET (R86). -/

namespace Sys2Proof.Machine

/-- RST: `T`, `V` and `RED` become 0 (R86). -/
def execRst (s : State) : Host.Outcome State Fault Refusal :=
  .next ((s.writeTweak 0 redAfterReset).writeValid validAfterReset)

end Sys2Proof.Machine
end

