-- ==== Sys2Proof/Machine/Dispatch.lean ====
section
/-! DEFINITION. One arm per instruction: which meaning runs. -/

namespace Sys2Proof.Machine

/-- What an operation does to the state at its edge (R40). -/
def exec (i : Instr) (s : State) : Host.Outcome State Fault Refusal :=
  match i with
  | .rst => Sys2Proof.Machine.execRst s
  | .nop => Sys2Proof.Machine.execNop s
  | .dbl => Sys2Proof.Machine.execDbl s
  | .ld din => Sys2Proof.Machine.execLd din s
  | .ldd din => Sys2Proof.Machine.execLdd din s

end Sys2Proof.Machine
end

