-- ==== Sys2Proof/Machine/Edge.lean ====
section
/-! DEFINITION. A rising edge of `clk`: sample, decode, execute (R37, R40, R92). -/

namespace Sys2Proof.Machine

/-- One rising edge. The operation that the sampled levels decode to reads the state before the edge
and writes the state after it; levels that decode to nothing are refused (R46). -/
def clockEdge (s : State) : Host.Outcome State Fault Refusal :=
  match decode s.pins with
  | .error port => .refused (.notBinary port)
  | .ok i => exec i s

end Sys2Proof.Machine
end

