-- ==== Sys2Proof/Machine/Step.lean ====
section
/-! DEFINITION. One step of the machine: the host's next act. -/

namespace Sys2Proof.Machine

/-- One step. When the host does nothing more there is no rising edge, so the state is held (R84).
DEDUCED (log 5, safe): the step then answers the same state. -/
def step (s : State) : Host.Outcome State Fault Refusal :=
  match s.host with
  | [] => .next s
  | .drive p :: rest => drivePins p (s.hostRest rest)
  | .edge :: rest => clockEdge (s.hostRest rest)
  | .look :: rest => lookAtOutputs (s.hostRest rest)
  | .takeTweak :: rest => takeTweak (s.hostRest rest)
  | .powerUp :: rest => powerUp (s.hostRest rest)

/-- The ports carry the opcode-table word and an edge comes next, so that the next step runs it (log 1). -/
def State.withFetchWord (s : State) (nbits w : Nat) : State :=
  { s with pins := tableWordPins nbits w, host := .edge :: s.host }

end Sys2Proof.Machine
end

