-- ==== Sys2Proof/Machine/Assembler.lean ====
section
/-! DEFINITION. What the spec's notation for command sequences stands for (R48 to R52): values,
the expansion of statements into one instruction per edge, the host's acts that issue them, and the listing. -/

namespace Sys2Proof.Machine

/-- Hexadecimal digits, most significant first, as a number (R8, R49). -/
def numberOfDigits (digits : List (Fin 16)) : Nat := digits.foldl (fun acc d => 16 * acc + d.val) 0

/-- Bytes, byte 0 first, as a number (R28, R49). -/
def numberOfBytes : List Byte → Nat
  | [] => 0
  | b :: bs => b.toNat + 256 * numberOfBytes bs

/-- The 128-bit value of a `<value>`: digits are zero-extended (R49). An ill-formed one has none. -/
def asmValue? (v : AsmValue) : Option Tweak :=
  if v.wellFormed then
    match v with
    | .hex digits => some (BitVec.ofNat 128 (numberOfDigits digits))
    | .bytes bs => some (BitVec.ofNat 128 (numberOfBytes bs))
  else none

/-- `TWK` on a value: LD of it and then n-1 DBL (R51). -/
def tweakSequence (x : Tweak) (n : Nat) : List Instr := .ld x :: List.replicate (n - 1) .dbl

/-- The instructions of a statement, one per edge (R48, R50, R51). An ill-formed statement has none. -/
def expandStmt (st : AsmStmt) : Option (List Instr) :=
  if st.wellFormed then
    match st with
    | .rst => some [.rst]
    | .nop => some [.nop]
    | .dbl => some [.dbl]
    | .ld v => (asmValue? v).map fun x => [.ld x]
    | .ldd v => (asmValue? v).map fun x => [.ldd x]
    | .dblTimes k => some (List.replicate k .dbl)
    | .nopTimes k => some (List.replicate k .nop)
    | .twk v n => (asmValue? v).map fun x => tweakSequence x n
  else none

/-- The instructions of a command sequence, in order (R48). -/
def expandAll : List AsmStmt → Option (List Instr)
  | [] => some []
  | st :: rest =>
    match expandStmt st, expandAll rest with
    | some is, some more => some (is ++ more)
    | _, _ => none

/-- The number of tweaks that a sector of `len` bytes needs, ceil(len / 16) (R67). -/
def tweakCount (len : Nat) : Nat := (len + 15) / 16

/-- The host presents an instruction and lets one edge sample it; `idle` is what `din` carries where
it is a don't-care. -/
def issue (idle : DinLevels) (i : Instr) : List HostEvent := [.drive (encode i idle), .edge]

/-- The host issues instructions one after the other. -/
def issueAll (idle : DinLevels) (is : List Instr) : List HostEvent := is.flatMap (issue idle)

/-- One row of a listing (R52). -/
structure ListingRow where
  /-- The edge index, counted from 1; no state of the block. -/
  edge : Nat
  stmt : Instr
  cw : CtrlWord
  /-- The operand, or none for a don't-care. -/
  din : Option Tweak
  /-- `T`, `V` and `RED` after the edge. -/
  t : Tweak
  v : Bool
  red : Bool
  deriving DecidableEq, Repr

/-- The rows of the instructions that remain, from the edge index `e` on. -/
def listingFrom (e : Nat) : List Instr → State → List ListingRow
  | [], _ => []
  | i :: is, s =>
    match exec i s with
    | .next s' =>
      { edge := e, stmt := i, cw := encodeCW i, din := i.operand?, t := s'.t, v := s'.v, red := s'.red }
        :: listingFrom (e + 1) is s'
    | .fault _ => []
    | .refused _ => []

/-- The listing of a command sequence from a start state: one row per edge (R52). -/
def listing (is : List Instr) (s : State) : List ListingRow := listingFrom 1 is s

end Sys2Proof.Machine
end

