-- ==== Sys2Proof/Machine/AsmText.lean ====
section
/-! DEFINITION. Reading the notation of R48 to R51 from characters, and the written form of its values.
DESIGN CHOICE (log 7, safe): white space is spaces and tabs, hexadecimal letters may be of either case, a byte list is written
`[b0 b1 ... b15]` with no space inside the brackets' edges, and `TWK <value>, n` has its comma right after the value. -/

namespace Sys2Proof.Machine

/-- The value of a decimal digit. -/
def decimalDigit? (c : Char) : Option Nat :=
  if '0' ≤ c ∧ c ≤ '9' then some (c.toNat - '0'.toNat) else none

/-- The value of a hexadecimal digit. -/
def hexDigit? (c : Char) : Option (Fin 16) :=
  if '0' ≤ c ∧ c ≤ '9' then some (Fin.ofNat 16 (c.toNat - '0'.toNat))
  else if 'A' ≤ c ∧ c ≤ 'F' then some (Fin.ofNat 16 (c.toNat - 'A'.toNat + 10))
  else if 'a' ≤ c ∧ c ≤ 'f' then some (Fin.ofNat 16 (c.toNat - 'a'.toNat + 10))
  else none

/-- Every character read by `f`, or nothing. -/
def readAll {α β : Type} (f : α → Option β) : List α → Option (List β)
  | [] => some []
  | a :: as =>
    match f a, readAll f as with
    | some b, some bs => some (b :: bs)
    | _, _ => none

/-- Cut a text at the characters that `sep` picks; the pieces may be empty. -/
def cutAt (sep : Char → Bool) : List Char → List (List Char)
  | [] => [[]]
  | c :: cs =>
    match sep c, cutAt sep cs with
    | true, pieces => [] :: pieces
    | false, [] => [[c]]
    | false, p :: ps => (c :: p) :: ps

/-- The words of a line up to its comment, which starts with `;` (R48). -/
def wordsOf (line : List Char) : List (List Char) :=
  (cutAt (fun c => c == ' ' || c == '\t') (line.takeWhile (· != ';'))).filter (fun w => !w.isEmpty)

/-- A decimal integer. -/
def decimal? (w : List Char) : Option Nat :=
  if w.isEmpty then none
  else (readAll decimalDigit? w).map fun ds => ds.foldl (fun acc d => 10 * acc + d) 0

/-- A two-digit hexadecimal byte (R49). -/
def byte? : List Char → Option Byte
  | [h, l] =>
    match hexDigit? h, hexDigit? l with
    | some a, some b => some (BitVec.ofNat 8 (16 * a.val + b.val))
    | _, _ => none
  | _ => none

/-- A text without its last character, when that is `c`. -/
def dropLast? (c : Char) (w : List Char) : Option (List Char) :=
  if w.getLast? = some c then some w.dropLast else none

/-- The last word without its last character `c`; the words before it stay. -/
def dropAtEnd? (c : Char) : List (List Char) → Option (List (List Char))
  | [] => none
  | [w] => (dropLast? c w).map fun w' => [w']
  | w :: ws => (dropAtEnd? c ws).map fun ws' => w :: ws'

/-- A `<value>` from its words (R49). -/
def parseValue : List (List Char) → Option AsmValue
  | ['0' :: 'x' :: digits] => (readAll hexDigit? digits).map AsmValue.hex
  | ('[' :: first) :: rest =>
    match dropAtEnd? ']' (first :: rest) with
    | some ws => (readAll byte? ws).map AsmValue.bytes
    | none => none
  | _ => none

/-- A statement from its words (R48, R50, R51). -/
def parseWords : List (List Char) → Option AsmStmt
  | [['R', 'S', 'T']] => some .rst
  | [['N', 'O', 'P']] => some .nop
  | [['D', 'B', 'L']] => some .dbl
  | ['D' :: 'B' :: 'L' :: '*' :: k] => (decimal? k).map AsmStmt.dblTimes
  | ['N' :: 'O' :: 'P' :: '*' :: k] => (decimal? k).map AsmStmt.nopTimes
  | ['L', 'D'] :: v => (parseValue v).map AsmStmt.ld
  | ['L', 'D', 'D'] :: v => (parseValue v).map AsmStmt.ldd
  | ['T', 'W', 'K'] :: ws =>
    match ws.getLast?.bind decimal?, (dropAtEnd? ',' ws.dropLast).bind parseValue with
    | some n, some v => some (.twk v n)
    | _, _ => none
  | _ => none

/-- One line: one statement, and perhaps a comment (R48). A statement that is not well formed is no statement. -/
def parseLine (line : List Char) : Option AsmStmt :=
  match parseWords (wordsOf line) with
  | some st => if st.wellFormed then some st else none
  | none => none

/-- A command sequence: a line per statement, in order (R48). -/
def parseProgram (text : List Char) : Option (List AsmStmt) :=
  readAll parseLine (cutAt (· == '\n') text)

/-- The instructions that a text stands for, one per edge (R48 to R51). -/
def assemble (text : List Char) : Option (List Instr) := (parseProgram text).bind expandAll

/-- A decimal digit as written. -/
def decimalChar (d : Fin 10) : Char := #v['0', '1', '2', '3', '4', '5', '6', '7', '8', '9'][d]

/-- A hexadecimal digit as the spec writes it, in upper case. -/
def hexChar (d : Fin 16) : Char :=
  #v['0', '1', '2', '3', '4', '5', '6', '7', '8', '9', 'A', 'B', 'C', 'D', 'E', 'F'][d]

/-- A byte as two hexadecimal digits (R49). -/
def byteText (b : Byte) : List Char :=
  [hexChar (Fin.ofNat 16 (b.toNat / 16)), hexChar (Fin.ofNat 16 b.toNat)]

/-- Bytes with one space between them (R49). -/
def bytesText : List Byte → List Char
  | [] => []
  | [b] => byteText b
  | b :: bs => byteText b ++ ' ' :: bytesText bs

/-- A `<value>` as the spec writes it (R49). -/
def valueText : AsmValue → List Char
  | .hex digits => '0' :: 'x' :: digits.map hexChar
  | .bytes bs => '[' :: (bytesText bs ++ [']'])

end Sys2Proof.Machine
end

