-- ==== Sys2Proof/Safety.lean ====
section
/-! DEFINITION. The terms in which claims are made: runs that stop at nothing, what the host observes,
the operations that a host script samples, and the field in which Double is a multiplication. -/

namespace Sys2Proof.Machine

/-- The run of k steps goes through without a fault and without a refusal: the premise
"no refusal and no fault recorded" (R85). -/
def runsTo (k : Nat) (s s' : State) : Prop := Sys2Proof.core.run k s = .next s'

/-- The three output ports between edges (R21). -/
structure Outputs where
  tout : Tweak
  tv : Bool
  red : Bool
  deriving DecidableEq, Repr

/-- What the host can see of a state (R21, R83). -/
def State.outputs (s : State) : Outputs := { tout := s.tout, tv := s.tv, red := s.redOut }

/-- The observation of a run of at most k steps: the outputs after each edge, in order (R10). -/
def observe : Nat → State → List Outputs
  | 0, _ => []
  | k + 1, s =>
    match step s with
    | .next s' => if s.host.head? = some .edge then s'.outputs :: observe k s' else observe k s'
    | .fault _ => []
    | .refused _ => []

/-- What the edges of a host script sample, in order, when the ports carry `p` at its start. -/
def sampled (p : Pins) : List HostEvent → List (Except InputPort Instr)
  | [] => []
  | .drive q :: es => sampled q es
  | .edge :: es => decode p :: sampled p es
  | .look :: es => sampled p es
  | .takeTweak :: es => sampled p es
  | .powerUp :: es => sampled p es

/-- The script holds no power-up. -/
def noPowerUp (es : List HostEvent) : Bool := es.all (· != .powerUp)

/-- Operations one after the other, each from the state that the one before left (R37). -/
def execAll : List Instr → State → Host.Outcome State Fault Refusal
  | [], s => .next s
  | i :: is, s =>
    match exec i s with
    | .next s' => execAll is s'
    | .fault r => .fault r
    | .refused r => .refused r

/-- When the host issues the instructions, whatever the ports carry on `din` where it is a don't-care and
whatever the host does after them, the run goes through, takes one edge per instruction and ends with
these outputs, which show the whole state of the block (R21). -/
def afterIssuing (is : List Instr) (s : State) (o : Outputs) : Prop :=
  ∀ (idle : DinLevels) (es : List HostEvent), ∃ u : State,
    runsTo (2 * is.length) { s with host := issueAll idle is ++ es } u ∧ u.outputs = o ∧ u.host = es

/-- One pass of the loop of R53 at byte i: it reads the input `b` and writes byte i of `o`. -/
def doubleLoopBody (b : TweakBytes) (o : TweakBytes) (i : Fin 16) : TweakBytes :=
  o.set i ((b[i] <<< 1) ||| (if h : i.val = 0 then 0#8 else b[i.val - 1]'(by omega) >>> 7))

/-- What a block that was reset keeps: while `tv` = 0 the tweak register is 0 and nothing was reduced
(R16, R62, R95), and after a reduction bit 0 of `T` is 1 (R55). -/
def State.TweakInv (s : State) : Prop :=
  (s.v = false → s.t = 0 ∧ s.red = false) ∧ (s.red = true → s.t.getLsbD 0 = true)

/-- The same, of a machine whose host schedules no power-up: a power-up may leave anything (R87). -/
def State.Inv (s : State) : Prop := s.TweakInv ∧ noPowerUp s.host = true

/-- Two states that differ at most in the block's own three elements. -/
def State.sameOutside (s₁ s₂ : State) : Prop :=
  s₁.pins = s₂.pins ∧ s₁.host = s₂.host ∧ s₁.draws = s₂.draws

end Sys2Proof.Machine

namespace Sys2Proof.Field

open Polynomial

/-- The field polynomial x^128 + x^7 + x^2 + x + 1 over GF(2) (R7, R58). -/
@[irreducible] noncomputable def modulus : (ZMod 2)[X] := X ^ 128 + X ^ 7 + X ^ 2 + X + 1

/-- A value read as a polynomial: bit j is the coefficient of x^j (R58). -/
noncomputable def poly (x : Tweak) : (ZMod 2)[X] :=
  ∑ j ∈ Finset.range 128, if x.getLsbD j then X ^ j else 0

end Sys2Proof.Field
end

