-- ==== Sys2Proof/Certificates/Slice0/Obligations.lean ====
section
/-! DEFINITION. The statements about the doubler. Unless a docstring says otherwise, a statement holds in every
state, whether a run reaches it or not. -/

open Sys2Proof Sys2Proof.Machine

/-! ## The machine: reset, one step, decoding -/

/-- R13 (its column of reset values): the state after reset. -/
def Obligations.ResetStateIsZero : Prop :=
  State.reset.t = 0 ∧ State.reset.v = false ∧ State.reset.red = false

/-- The invariant of `StepKeepsTweakInvariant` holds after reset. Its clause on `T`, `V` and `RED` rests on their reset values (R86);
its clause that no power-up is to come rests on the model's choice that the host's script is empty at reset (log 2, DESIGN CHOICE). -/
def Obligations.ResetMeetsTweakInvariant : Prop := State.reset.Inv

/-- R40, R92: at an edge, the step is the operation that the sampled levels decode to. Levels that decode to nothing are refused
(R46); that the refusal carries the name of one port is the model's choice (log 5, DESIGN CHOICE). The act of the host is
used up, and nothing else is added. -/
def Obligations.StepRunsTheSampledOperation : Prop :=
  ∀ (s : State) (es : List HostEvent), s.host = .edge :: es →
    (∀ i, decode s.pins = .ok i → step s = exec i (s.hostRest es)) ∧
    (∀ port, decode s.pins = .error port → step s = .refused (.notBinary port))

/-- A word of the opcode table that the decoder reads is the very next thing that runs (R40). Which acts of the host stand for
this is the model's choice (log 1, DESIGN CHOICE), and so are the levels that a table word drives: zeros on `din`, and
unknown levels for a number that is no control word (log 8, DESIGN CHOICE). -/
def Obligations.TableWordRunsNext : Prop :=
  ∀ (s : State) (nbits w : Nat) (i : Instr), decodeTableWord nbits w = some i →
    step (s.withFetchWord nbits w) = exec i { s with pins := tableWordPins nbits w }

/-- R40, R48: words written out from the decode table decode to the instructions they stand for. The operand 0 of the words 010
and 011 is the model's choice that a table word carries zeros on `din` (log 8, DESIGN CHOICE). -/
def Obligations.SpecWordsDecode : Prop :=
  decodeTableWord 8 0b100 = some .rst ∧ decodeTableWord 8 0b111 = some .rst ∧
  decodeTableWord 8 0b000 = some .nop ∧ decodeTableWord 8 0b001 = some .dbl ∧
  decodeTableWord 8 0b010 = some (.ld 0) ∧ decodeTableWord 8 0b011 = some (.ldd 0)

/-- R40: every control word with every operand decodes to exactly the operation of the table, and that operation
writes the state at that edge. -/
def Obligations.ControlWordSelectsOperation : Prop :=
  ∀ (s : State) (es : List HostEvent) (r c1 c0 : Bool) (x : Tweak),
    s.host = .edge :: es →
    s.pins = { rst := Level.ofBit r, cmd1 := Level.ofBit c1, cmd0 := Level.ofBit c0, din := dinOfTweak x } →
    step s = exec
      (if r then .rst
       else if c1 then (if c0 then .ldd x else .ld x)
       else (if c0 then .dbl else .nop)) (s.hostRest es)

/-- R45: exactly one row of the decode table covers each control word, and an edge that samples any control word
with any operand goes through. -/
def Obligations.EveryControlWordIsDefined : Prop :=
  (∀ cw : CtrlWord, ((opcodeRows.filter fun row => row.covers cw).map OpcodeRow.operation) = [decodeCW cw]) ∧
  ∀ (s : State) (es : List HostEvent) (cw : CtrlWord) (x : Tweak),
    s.host = .edge :: es → s.pins = Pins.ofCW cw (dinOfTweak x) → ∃ s', step s = .next s'

/-- R46: an edge is refused exactly when a bit of `rst` or `cmd`, or a bit of `din` at an edge that samples `din`, is not
a clean 0 or 1; and the refusal is kept for the rest of the run. That a bit of `cmd` beside `rst` = 1 is refused too is the
model's reading of R46 and R93 against R40 and R86 (log 4, DEDUCED). -/
def Obligations.NonBinaryInputIsRefused : Prop :=
  ∀ (s : State) (es : List HostEvent), s.host = .edge :: es →
    ((∃ port, step s = .refused (.notBinary port)) ↔
      (s.pins.rst.clean = false ∨ s.pins.cmd1.clean = false ∨ s.pins.cmd0.clean = false ∨
        (s.pins.rst = .low ∧ s.pins.cmd1 = .high ∧ ∃ l ∈ s.pins.din.toList, l.clean = false))) ∧
    (∀ r, step s = .refused r → ∀ k, Sys2Proof.core.run (k + 1) s = .refused r)

/-- Every well-formed instruction presented with any levels on an unused `din` decodes to itself; and levels that
decode to an instruction are those that its encoding drives, but for the command bits beside a reset, which are
without effect (R40, R42, R48). That those bits are clean is the model's reading of R46 and R93 (log 4, DEDUCED). -/
def Obligations.DecodeAndEncodeAgree : Prop :=
  (∀ (i : Instr) (idle : DinLevels), i.wellFormed = true → decode (encode i idle) = .ok i) ∧
  (∀ (p : Pins) (i : Instr), decode p = .ok i →
    p = encode i p.din ∨
      (i = .rst ∧ p.rst = .high ∧ p.cmd1.clean = true ∧ p.cmd0.clean = true))

/-- R22: between edges the inputs may change without any effect on the block; at an edge whose operation is RESET, NOP
or DBL, `din` may carry anything, clean or not, and the block's next state is the same. -/
def Obligations.DinIsDontCare : Prop :=
  (∀ (s : State) (es : List HostEvent) (p : Pins), s.host = .drive p :: es →
    step s = .next { s with host := es, pins := p }) ∧
  (∀ (s : State) (es : List HostEvent) (i : Instr) (d : DinLevels),
    s.host = .edge :: es → decode s.pins = .ok i → i.operand? = none →
    ∃ a b, step s = .next a ∧ step { s with pins := { s.pins with din := d } } = .next b ∧
      a.t = b.t ∧ a.v = b.v ∧ a.red = b.red)

/-- R21: the outputs are `T`, `V` and `RED`; and however the inputs change and however often the outputs are read, as long as
no edge comes (and the block is not powered up again) the outputs show the same values. -/
def Obligations.OutputsHoldBetweenEdges : Prop :=
  ∀ (s : State) (es rest : List HostEvent), .edge ∉ es → .powerUp ∉ es →
    (.takeTweak ∉ es ∨ s.v = true) → s.host = es ++ rest →
    s.outputs = { tout := s.t, tv := s.v, red := s.red } ∧
    ∃ u, runsTo es.length s u ∧ u.outputs = s.outputs ∧ u.host = rest

/-- R35: any number of reads leave everything as it was, and an edge leaves the ports as it found them. -/
def Obligations.ReadsAndSamplesHaveNoSideEffect : Prop :=
  (∀ (s : State) (n : Nat) (es : List HostEvent), s.host = List.replicate n .look ++ es →
    runsTo n s { s with host := es }) ∧
  (∀ (s s' : State) (es : List HostEvent), s.host = .edge :: es → step s = .next s' →
    s'.pins = s.pins ∧ s'.host = es ∧ s'.draws = s.draws)

/-! ## The five operations -/

/-- R86: every control word 1xx, whatever `din` carries, is RESET; RESET writes 0 to `T`, `V` and `RED` and
nothing else; it acts only at an edge; it throws away a load at the same edge and any sequence before it. -/
def Obligations.RstClearsTheBlock : Prop :=
  (∀ (c1 c0 : Bool) (d : DinLevels),
    decode { rst := .high, cmd1 := Level.ofBit c1, cmd0 := Level.ofBit c0, din := d } = .ok .rst) ∧
  (∀ s : State, exec .rst s = .next { s with t := 0, v := false, red := false }) ∧
  (∀ (s : State) (es : List HostEvent) (p : Pins), p.rst = .high → s.host = .drive p :: es →
    step s = .next { s with host := es, pins := p }) ∧
  (∀ (s : State) (is : List Instr), afterIssuing (is ++ [.rst]) s { tout := 0, tv := false, red := false })

/-- R42: when `rst` is 1 at an edge, the next state of the block is the reset state, whatever command comes with it and
whatever `din` carries. -/
def Obligations.ResetWinsOverCommand : Prop :=
  ∀ (s : State) (es : List HostEvent), s.host = .edge :: es → s.pins.rst = .high →
    s.pins.cmd1.clean = true → s.pins.cmd0.clean = true →
    step s = .next { s with t := 0, v := false, red := false, host := es }

/-- R69: the word 000, whatever `din` carries, is NOP; NOP changes nothing; and any number of NOP edges between two
DBL edges leave the tweak that the two DBL give. -/
def Obligations.NopHolds : Prop :=
  (∀ d : DinLevels, decode (Pins.ofCW 0b000#3 d) = .ok .nop) ∧
  (∀ s : State, exec .nop s = .next s) ∧
  (∀ (s : State) (n : Nat),
    afterIssuing (.dbl :: List.replicate n .nop ++ [.dbl]) s
      { tout := double (double s.t), tv := s.v, red := (double s.t).getLsbD 127 })

/-- R70: the word 001, whatever `din` carries, is DBL; DBL writes (T << 1) XOR (T[127] ? 0x87 : 0) to `T` and the old T[127]
to `RED`, and nothing else; 0 stays 0; k of them double k times; and repeated DBL keeps `T` = 0 after a reset. -/
def Obligations.DblDoublesTheTweak : Prop :=
  (∀ d : DinLevels, decode (Pins.ofCW 0b001#3 d) = .ok .dbl) ∧
  (∀ s : State, exec .dbl s = .next { s with
    t := (s.t <<< 1) ^^^ (if s.t.getLsbD 127 then 0x87#128 else 0#128)
    red := s.t.getLsbD 127 }) ∧
  (∀ s : State, s.t = 0 → exec .dbl s = .next { s with red := false }) ∧
  (∀ s : State, s.t = 0x80000000000000000000000000000000#128 →
    exec .dbl s = .next { s with t := 0x87#128, red := true }) ∧
  (∀ s : State, s.t = 0x80000000000000000000000000000001#128 →
    exec .dbl s = .next { s with t := 0x85#128, red := true }) ∧
  (∀ (s : State) (x : Tweak) (k : Nat), ∃ o, afterIssuing (.ld x :: List.replicate k .dbl) s o ∧
    o.tout = double^[k] x ∧ o.tv = true) ∧
  (∀ (s : State) (k : Nat), afterIssuing (.rst :: List.replicate k .dbl) s
    { tout := 0, tv := false, red := false })

/-- R71: the word 010 with a clean operand is LD; LD writes the operand to `T`, 1 to `V` and 0 to `RED`, and nothing else;
the operand comes from the host's byte array without a swap; the old tweak is lost; an operand bit that is not clean
is refused. -/
def Obligations.LdLoadsTheOperand : Prop :=
  (∀ x : Tweak, decode (Pins.ofCW 0b010#3 (dinOfTweak x)) = .ok (.ld x)) ∧
  (∀ b : TweakBytes, decode (Pins.ofCW 0b010#3 (dinOfBytes b)) = .ok (.ld (tweakOfBytes b))) ∧
  (∀ (s : State) (x : Tweak), exec (.ld x) s = .next { s with t := x, v := true, red := false }) ∧
  (∀ (s : State) (is : List Instr) (x : Tweak), afterIssuing (is ++ [.ld x, .dbl]) s
    { tout := double x, tv := true, red := x.getLsbD 127 }) ∧
  (∀ (s : State) (es : List HostEvent) (d : DinLevels), s.host = .edge :: es →
    s.pins = Pins.ofCW 0b010#3 d → (∃ l ∈ d.toList, l.clean = false) →
    step s = .refused (.notBinary .din))

/-- R72: the word 011 with a clean operand is LDD; LDD writes the operand's double to `T`, 1 to `V` and the operand's
bit 127 to `RED`, and nothing else, whatever `T` was; k DBL after it double k+1 times; an operand bit that is not
clean is refused. -/
def Obligations.LddLoadsTheDouble : Prop :=
  (∀ x : Tweak, decode (Pins.ofCW 0b011#3 (dinOfTweak x)) = .ok (.ldd x)) ∧
  (∀ b : TweakBytes, decode (Pins.ofCW 0b011#3 (dinOfBytes b)) = .ok (.ldd (tweakOfBytes b))) ∧
  (∀ (s : State) (x : Tweak), exec (.ldd x) s = .next { s with
    t := (x <<< 1) ^^^ (if x.getLsbD 127 then 0x87#128 else 0#128)
    v := true
    red := x.getLsbD 127 }) ∧
  (∀ (s : State) (x : Tweak) (k : Nat), ∃ o, afterIssuing (.ldd x :: List.replicate k .dbl) s o ∧
    o.tout = double^[k + 1] x ∧ o.tv = true) ∧
  (∀ (s : State) (es : List HostEvent) (d : DinLevels), s.host = .edge :: es →
    s.pins = Pins.ofCW 0b011#3 d → (∃ l ∈ d.toList, l.clean = false) →
    step s = .refused (.notBinary .din))

/-! ## The function Double -/

/-- R53: the passes of the loop in any order, over any first contents of `o`, and then the reduction of byte 0 when the
bit shifted out of byte 15 is 1, give the bytes of Double; and the value that the commands compute has these bytes. -/
def Obligations.DoubleIsTheByteLoop : Prop :=
  (∀ (b start : TweakBytes) (order : List (Fin 16)), (∀ i, i ∈ order) →
    doubleBytes b =
      (let o := order.foldl (doubleLoopBody b) start
       if b[15].getLsbD 7 then o.set 0 (o[0] ^^^ 0x87#8) else o)) ∧
  (∀ x : Tweak, bytesOfTweak (double x) = doubleBytes (bytesOfTweak x))

/-- R54: Double on the 128-bit value is a shift to the left and the conditional XOR with 0x87. -/
def Obligations.DoubleIsShiftAndXor : Prop :=
  ∀ x : Tweak, double x = (x <<< 1) ^^^ (if x.getLsbD 127 then BitVec.zeroExtend 128 0x87#8 else 0#128)

/-- R55: every output bit of Double. -/
def Obligations.DoubleBitByBit : Prop :=
  ∀ x : Tweak,
    (double x).getLsbD 0 = x.getLsbD 127 ∧
    (double x).getLsbD 1 = (x.getLsbD 0 ^^ x.getLsbD 127) ∧
    (double x).getLsbD 2 = (x.getLsbD 1 ^^ x.getLsbD 127) ∧
    (double x).getLsbD 3 = x.getLsbD 2 ∧ (double x).getLsbD 4 = x.getLsbD 3 ∧
    (double x).getLsbD 5 = x.getLsbD 4 ∧ (double x).getLsbD 6 = x.getLsbD 5 ∧
    (double x).getLsbD 7 = (x.getLsbD 6 ^^ x.getLsbD 127) ∧
    ∀ j, 8 ≤ j → j ≤ 127 → (double x).getLsbD j = x.getLsbD (j - 1)

open Polynomial in
/-- R56: 0x87 has exactly the bits 7, 2, 1 and 0; it is the field polynomial without its x^128 term, and so the value of
x^128 modulo it; and the reduction changes byte 0 only. -/
def Obligations.ReductionConstantIsTheFieldPolynomial : Prop :=
  (∀ j, reductionConstant.getLsbD j = true ↔ j = 7 ∨ j = 2 ∨ j = 1 ∨ j = 0) ∧
  Field.poly (BitVec.zeroExtend 128 reductionConstant) = X ^ 7 + X ^ 2 + X + 1 ∧
  Field.modulus = X ^ 128 + Field.poly (BitVec.zeroExtend 128 reductionConstant) ∧
  X ^ 128 %ₘ Field.modulus = Field.poly (BitVec.zeroExtend 128 reductionConstant) ∧
  (∀ (x : Tweak) (i : Nat), 0 < i → i < 16 → byteOf (double x) i = byteOf (x <<< 1) i)

/-- R57: the reduction happens exactly when bit 7 of the input's byte 15, which is bit 127, is 1; bit 7 of the result's
byte 15 is the input's bit 126 and starts no reduction of the same Double. -/
def Obligations.ReductionReadsTheInputsBit127 : Prop :=
  ∀ x : Tweak,
    x.getLsbD 127 = (byteOf x 15).getLsbD 7 ∧
    (x.getLsbD 127 = true → double x = (x <<< 1) ^^^ 0x87#128) ∧
    (x.getLsbD 127 = false → double x = x <<< 1) ∧
    (byteOf (double x) 15).getLsbD 7 = x.getLsbD 126

open Polynomial in
/-- R58: read as a polynomial over GF(2) with bit j the coefficient of x^j, Double is the multiplication by x modulo
x^128 + x^7 + x^2 + x + 1, and the element "2" is x. -/
def Obligations.DoubleMultipliesByX : Prop :=
  Field.poly 2#128 = X ∧
  (∀ x : Tweak, Field.poly (double x) = (X * Field.poly x) %ₘ Field.modulus) ∧
  (∀ (x : Tweak) (j : Nat), j < 128 → ((Field.poly x).coeff j = 1 ↔ x.getLsbD j = true))

/-- R61: Double is linear over GF(2). -/
def Obligations.DoubleIsLinear : Prop :=
  ∀ a b : Tweak, double (a ^^^ b) = double a ^^^ double b

/-- R62: Double is 0 at 0 and only there; without bit 127 it is the shift, and with it bit 0 of the result is 1. -/
def Obligations.DoubleIsZeroOnlyAtZero : Prop :=
  ∀ x : Tweak, (double x = 0 ↔ x = 0) ∧
    (x.getLsbD 127 = false → double x = x <<< 1) ∧
    (x.getLsbD 127 = true → (double x).getLsbD 0 = true)

/-- R63: Double is a bijection and Halve is its inverse on both sides. -/
def Obligations.HalveInvertsDouble : Prop :=
  Function.Bijective double ∧ (∀ x, halve (double x) = x) ∧ (∀ o, double (halve o) = o)

open Polynomial in
/-- R64: k applications of Double multiply by x^k modulo the field polynomial, and the values that the rule gives. -/
def Obligations.IteratedDoubleMultipliesByPowers : Prop :=
  (∀ (x : Tweak) (k : Nat), Field.poly (double^[k] x) = (Field.poly x * X ^ k) %ₘ Field.modulus) ∧
  (∀ k, k ≤ 127 → double^[k] 1#128 = BitVec.twoPow 128 k) ∧
  double^[128] 1#128 = 0x87#128 ∧ double^[129] 1#128 = 0x10E#128 ∧ double^[256] 1#128 = 0x4015#128

/-- R65, which the spec marks as resting on general knowledge: the doublings of a non-zero tweak come back to it exactly
after multiples of 2^128 - 1. -/
def Obligations.DoubleHasFullOrder : Prop :=
  ∀ (x : Tweak) (k : Nat), x ≠ 0 → (double^[k] x = x ↔ (2 ^ 128 - 1) ∣ k)

/-- R68: the corner cases of Double. -/
def Obligations.DoubleCornerCases : Prop :=
  double 0#128 = 0#128 ∧
  double 0x80000000000000000000000000000000#128 = 0x87#128 ∧
  double 0x80000000000000000000000000000001#128 = 0x85#128 ∧
  double 0x80000000000000000000000000000087#128 = 0x189#128 ∧
  (∀ (x : Tweak) (i : Nat), i < 15 →
    (byteOf (double x) (i + 1)).getLsbD 0 = (byteOf x i).getLsbD 7) ∧
  (∀ x : Tweak, x.getLsbD 126 = true → (double x).getLsbD 127 = true) ∧
  double (BitVec.twoPow 128 126) = BitVec.twoPow 128 127 ∧
  double 0xFFFFFFFFFFFFFFFFFFFFFFFFFFFFFFFF#128 = 0xFFFFFFFFFFFFFFFFFFFFFFFFFFFFFF79#128 ∧
  (∀ x : Tweak, (byteOf (double x) 15).getLsbD 7 = x.getLsbD 126) ∧
  (∀ (x y : Tweak) (k : Nat), x ≠ y → double^[k] x ≠ double^[k] y)

/-! ## Byte order -/

/-- R28, R29: the integer of 16 bytes is the sum of b[i] * 2^(8i); byte i of it is b[i], with bit j of the value bit j mod 8 of
byte j div 8; and the two forms of a tweak carry the same information. -/
def Obligations.TweakIsLittleEndian : Prop :=
  (∀ b : TweakBytes, (tweakOfBytes b).toNat = ∑ i : Fin 16, b[i].toNat * 2 ^ (8 * i.val)) ∧
  (∀ (b : TweakBytes) (i : Fin 16), byteOf (tweakOfBytes b) i = b[i]) ∧
  (∀ (b : TweakBytes) (j : Fin 128), (tweakOfBytes b).getLsbD j = (b[j.val / 8]'(by omega)).getLsbD (j.val % 8)) ∧
  (∀ x : Tweak, tweakOfBytes (bytesOfTweak x) = x)

/-- R30: byte i of the host's array lies on `din[8i+7:8i]`, and after a load byte i of `tout` is that byte again. -/
def Obligations.PortsCarryBytesUnswapped : Prop :=
  (∀ (b : TweakBytes) (i : Fin 16) (j : Fin 8),
    (dinOfBytes b)[8 * i.val + j.val]'(by omega) = Level.ofBit (b[i].getLsbD j)) ∧
  (∀ (b : TweakBytes) (s : State) (es : List HostEvent), s.host = .edge :: es →
    s.pins = Pins.ofCW 0b010#3 (dinOfBytes b) →
    ∃ u, step s = .next u ∧ ∀ i : Fin 16, byteOf u.tout i = b[i])

/-! ## Status bits, and what changes the state -/

/-- R16: LD and LDD set `V`, RESET clears it, NOP and DBL keep it; so after any operations `V` is 1 exactly when a load
came after the last reset, or `V` was 1 and no reset came; and no operation's result depends on `V`. -/
def Obligations.ValidMeansLoadedSinceReset : Prop :=
  (∀ (is : List Instr) (s : State), ∃ o, afterIssuing is s o ∧
    (o.tv = true ↔
      (∃ before i after, is = before ++ i :: after ∧ (i.operand?).isSome = true ∧ Instr.rst ∉ after) ∨
        (s.v = true ∧ Instr.rst ∉ is))) ∧
  (∀ (i : Instr) (s : State) (b : Bool), ∃ a c, exec i s = .next a ∧ exec i { s with v := b } = .next c ∧
    a.t = c.t ∧ a.red = c.red)

/-- R17: DBL and LDD write the bit shifted out to `RED`, LD and RESET write 0, NOP keeps it; `RED` is 1 after a doubling
exactly when the reduction was applied; and no operation's result depends on `RED`. -/
def Obligations.RedTellsTheReduction : Prop :=
  (∀ s : State, ∃ u, exec .dbl s = .next u ∧ u.red = s.t.getLsbD 127 ∧ (u.red = true ↔ u.t ≠ s.t <<< 1)) ∧
  (∀ (s : State) (x : Tweak), ∃ u, exec (.ldd x) s = .next u ∧ u.red = x.getLsbD 127 ∧
    (u.red = true ↔ u.t ≠ x <<< 1)) ∧
  (∀ (s : State) (x : Tweak), ∃ u, exec (.ld x) s = .next u ∧ u.red = false) ∧
  (∀ s : State, ∃ u, exec .rst s = .next u ∧ u.red = false) ∧
  (∀ s : State, ∃ u, exec .nop s = .next u ∧ u.red = s.red) ∧
  (∀ (i : Instr) (s : State) (b : Bool), ∃ a c, exec i s = .next a ∧ exec i { s with red := b } = .next c ∧
    a.t = c.t ∧ a.v = c.v)

/-- R13 (its column "written by"): a step that changes `T`, `V` or `RED` is an edge that decodes to an operation which the table
names as a writer of that element, or a power-up; and only the host's own acts change the ports. -/
def Obligations.OnlyTheWritersChangeTheBlock : Prop :=
  ∀ s s' : State, step s = .next s' → s.host.head? ≠ some .powerUp →
    (s'.t ≠ s.t → s.host.head? = some .edge ∧
      ∃ i, decode s.pins = .ok i ∧ (i = .rst ∨ i = .dbl ∨ (i.operand?).isSome = true)) ∧
    (s'.v ≠ s.v → s.host.head? = some .edge ∧
      ∃ i, decode s.pins = .ok i ∧ (i = .rst ∨ (i.operand?).isSome = true)) ∧
    (s'.red ≠ s.red → s.host.head? = some .edge ∧
      ∃ i, decode s.pins = .ok i ∧ (i = .rst ∨ i = .dbl ∨ (i.operand?).isSome = true)) ∧
    (s'.pins ≠ s.pins → s.host.head? = some (.drive s'.pins)) ∧
    s'.draws = s.draws ∧ s'.host = s.host.tail

/-- After a reset, with no power-up to come, the block keeps this through every step: while `V` is 0, `T` is 0 and `RED` is 0; and
while `RED` is 1, bit 0 of `T` is 1 (R16, R55, R62, R95). -/
def Obligations.StepKeepsTweakInvariant : Prop :=
  ∀ s s' : State, s.Inv → step s = .next s' → s'.Inv

/-! ## Runs -/

/-- R37: operations that the host issues take effect in the order of their edges, each on the state that the one before
left, whatever else is on `din` and whatever comes after. -/
def Obligations.CommandsTakeEffectInEdgeOrder : Prop :=
  ∀ (is : List Instr) (s : State), ∃ u, execAll is s = .next u ∧ afterIssuing is s u.outputs

/-- R66: after an edge that loads tweak[0], any script of the host whose edges sample only DBL and NOP, k of them DBL, with any
changes of the ports and any reads in between, ends with T = Double^k(tweak[0]) and V = 1; and an LDD of a
tweak gives the next one in one edge. -/
def Obligations.TweakSequenceIsRepeatedDoubling : Prop :=
  (∀ (s : State) (x : Tweak) (script rest : List HostEvent) (ops : List Instr),
    s.host = .edge :: (script ++ rest) → decode s.pins = .ok (.ld x) → HostEvent.powerUp ∉ script →
    sampled s.pins script = ops.map Except.ok → (∀ i ∈ ops, i = .dbl ∨ i = .nop) →
    ∃ u, runsTo (1 + script.length) s u ∧ u.tout = double^[ops.count .dbl] x ∧ u.tv = true ∧ u.host = rest) ∧
  (∀ (s : State) (x : Tweak) (es : List HostEvent), s.host = .edge :: es → decode s.pins = .ok (.ldd x) →
    ∃ u, step s = .next u ∧ u.tout = double x ∧ u.tv = true)

/-- R51: `TWK <value>, n` is LD and n-1 DBL, n edges in all; tweak[j] is on `tout` after edge j+1 and stays there
while the ports change and the outputs are read, until the next edge. -/
def Obligations.TwkGeneratesTheTweaks : Prop :=
  ∀ (v : AsmValue) (x : Tweak) (n : Nat), asmValue? v = some x → 1 ≤ n →
    ∃ is, expandStmt (.twk v n) = some is ∧ is = .ld x :: List.replicate (n - 1) .dbl ∧ is.length = n ∧
      ∀ (s : State) (j : Nat), j < n →
        ∃ o, afterIssuing (is.take (j + 1)) s o ∧ o.tout = double^[j] x ∧ o.tv = true ∧
          ∀ (u : State) (p : Pins) (es : List HostEvent), u.outputs = o →
            (u.host = .drive p :: es ∨ u.host = .look :: es ∨ u.host = .takeTweak :: es) →
            ∃ w, step u = .next w ∧ w.outputs = o

/-- R67: a sector of `len` bytes needs the tweaks 0 to n-1 with n = ceil(len/16), and `TWK` with that n ends with
tweak[n-1], for every length: nothing bounds n. -/
def Obligations.SectorNeedsCeilTweaks : Prop :=
  ∀ (len : Nat) (x : Tweak) (s : State), 16 ≤ len →
    16 * (tweakCount len - 1) < len ∧ len ≤ 16 * tweakCount len ∧
    ∃ o, afterIssuing (tweakSequence x (tweakCount len)) s o ∧ o.tout = double^[tweakCount len - 1] x ∧ o.tv = true

/-- An edge that loads or resets makes the block forget: from there on, two machines that differed only in the block run and show
the same (R71, R72, R86, R90). -/
def Obligations.LoadOrResetForgetsThePast : Prop :=
  ∀ (s₁ s₂ : State) (es : List HostEvent) (i : Instr), s₁.sameOutside s₂ → s₁.host = .edge :: es →
    decode s₁.pins = .ok i → (i = .rst ∨ (i.operand?).isSome = true) →
    ∀ k, Sys2Proof.core.run (k + 1) s₁ = Sys2Proof.core.run (k + 1) s₂ ∧ observe (k + 1) s₁ = observe (k + 1) s₂

/-- R97: two different values of `T` give different tweaks after any DBL and NOP commands, however many; a new LD of a value
repairs it. -/
def Obligations.ErrorsPropagate : Prop :=
  (∀ (s : State) (x y : Tweak) (ops : List Instr), x ≠ y → (∀ i ∈ ops, i = .dbl ∨ i = .nop) →
    ∃ o₁ o₂, afterIssuing ops { s with t := x } o₁ ∧ afterIssuing ops { s with t := y } o₂ ∧ o₁.tout ≠ o₂.tout) ∧
  (∀ (s : State) (x y z : Tweak) (ops : List Instr),
    ∃ o, afterIssuing (ops ++ [.ld z]) { s with t := x } o ∧ afterIssuing (ops ++ [.ld z]) { s with t := y } o)

/-- R85: the only outcomes other than a next state are the refusal of an edge that samples a bit which is not a clean 0 or 1 (R46), and
the fault of a host that takes a tweak while `tv` is 0 (R95). A run that stops went through to a state whose next act is
of that kind, and every longer run ends with the same stop: once recorded, neither is cleared. Two clauses are the
model's: a bit of `cmd` beside `rst` = 1 is refused when it is not clean (log 4, DEDUCED), and the refusal names
the first port of `rst`, `cmd`, `din` that is not clean (log 5, DESIGN CHOICE). -/
def Obligations.StopsAreExactlyTheTwo : Prop :=
  (∀ (s : State) (r : Fault), step s = .fault r ↔
    r = .tweakNotLoaded ∧ s.host.head? = some .takeTweak ∧ s.tv = false) ∧
  (∀ (s : State) (r : Refusal), step s = .refused r ↔
    s.host.head? = some .edge ∧
      ((r = .notBinary .rst ∧ s.pins.rst.clean = false) ∨
       (r = .notBinary .cmd ∧ s.pins.rst.clean = true ∧ (s.pins.cmd1.clean = false ∨ s.pins.cmd0.clean = false)) ∨
       (r = .notBinary .din ∧ s.pins.rst = .low ∧ s.pins.cmd1 = .high ∧ s.pins.cmd0.clean = true ∧
         ∃ l ∈ s.pins.din.toList, l.clean = false))) ∧
  (∀ s : State, (∃ r, step s = .refused r) ↔ s.host.head? = some .edge ∧ s.pins.wellFormed = false) ∧
  (∀ (s : State) (j : Nat) (r : Fault), Sys2Proof.core.run j s = .fault r →
    (∃ i u, i < j ∧ runsTo i s u ∧ u.host.head? = some .takeTweak ∧ u.tv = false) ∧
      ∀ k, Sys2Proof.core.run (j + k) s = .fault r) ∧
  (∀ (s : State) (j : Nat) (r : Refusal), Sys2Proof.core.run j s = .refused r →
    (∃ i u, i < j ∧ runsTo i s u ∧ u.host.head? = some .edge ∧ u.pins.wellFormed = false) ∧
      ∀ k, Sys2Proof.core.run (j + k) s = .refused r)

/-- R95: after any operations that leave `tv` = 0, `T` is 0 when a RESET was among them, and else the first `T` doubled once for
each DBL among them; taking `tout` as a tweak while `tv` = 0 is a fault that is never cleared, although `tout` still
shows `T`; while `tv` = 1 it is a read without effect. -/
def Obligations.TakingAnUnloadedTweakFaults : Prop :=
  (∀ (is : List Instr) (s : State), ∃ o, afterIssuing is s o ∧
    (o.tv = false → (Instr.rst ∈ is → o.tout = 0) ∧
      (Instr.rst ∉ is → o.tout = double^[is.count .dbl] s.t))) ∧
  (∀ (s : State) (es : List HostEvent), s.host = .takeTweak :: es → s.tv = false →
    s.tout = s.t ∧ ∀ k, Sys2Proof.core.run (k + 1) s = .fault .tweakNotLoaded) ∧
  (∀ (s : State) (es : List HostEvent), s.host = .takeTweak :: es → s.tv = true →
    step s = .next { s with host := es })

/-- A power-up puts a fresh draw of POWERON_STATE into the block, of which nothing is assumed (R87; R84's last sentence), and NOP
keeps it (R69). The rest is the model's choice (log 3, DESIGN CHOICE): that a power-up is an act of the host's script at all,
since R84 says that the spec does not model a loss of power; that it changes nothing else, so that the levels on the
ports and the rest of the script stay; and the draws as free values indexed by a count of power-ups. -/
def Obligations.PowerUpDrawsTheState : Prop :=
  ∀ (s : State) (es : List HostEvent), s.host = .powerUp :: es →
    step s = .next { s with
      t := Config.powerOnTweak s.draws
      v := Config.powerOnValid s.draws
      red := Config.powerOnReduced s.draws
      draws := s.draws + 1
      host := es } ∧
    ∀ (u : State) (n : Nat), step s = .next u → afterIssuing (List.replicate n .nop) u u.outputs

/-- R88: after any power-up, at least one reset edge and then a load make `tout` usable: the tweak that the host takes is the
loaded one (or its double), without a fault. -/
def Obligations.BootSequenceLoadsATweak : Prop :=
  ∀ (s : State) (idle : DinLevels) (es : List HostEvent) (x : Tweak) (k : Nat), 1 ≤ k →
    (s.host = .powerUp :: issueAll idle (List.replicate k .rst ++ [.ld x]) ++ .takeTweak :: es →
      ∃ u, runsTo (2 * k + 4) s u ∧ u.tout = x ∧ u.tv = true ∧ u.host = es) ∧
    (s.host = .powerUp :: issueAll idle (List.replicate k .rst ++ [.ldd x]) ++ .takeTweak :: es →
      ∃ u, runsTo (2 * k + 4) s u ∧ u.tout = double x ∧ u.tv = true ∧ u.host = es)

/-- R89: one reset edge is enough, further ones keep the reset state, and the first edge without reset executes its command
from that state. -/
def Obligations.OneResetEdgeIsEnough : Prop :=
  ∀ (s : State) (k : Nat), 1 ≤ k →
    afterIssuing (List.replicate k .rst) s { tout := 0, tv := false, red := false } ∧
    ∀ i : Instr, ∃ u, exec i { s with t := 0, v := false, red := false } = .next u ∧
      afterIssuing (List.replicate k .rst ++ [i]) s u.outputs

/-! ## The notation -/

/-- R48 to R51: the five words of the table of R48, with RST's canonical 1 00, and what each drives on every port; the instructions of
each plain statement; each statement as written is read as itself, whatever its value and its count, and an ill-formed one is
not read; a comment, which starts with `;`, changes nothing of a line; and lines are read in order. The white space, the
letter case and the place of the comma in the written forms are the model's choice where the rules show only
examples (log 7, DESIGN CHOICE). -/
def Obligations.StatementsAndComments : Prop :=
  (∀ x : Tweak, encodeCW .rst = 0b100#3 ∧ encodeCW .nop = 0b000#3 ∧ encodeCW .dbl = 0b001#3 ∧
    encodeCW (.ld x) = 0b010#3 ∧ encodeCW (.ldd x) = 0b011#3) ∧
  (∀ (idle : DinLevels) (x : Tweak),
    encode .rst idle = { rst := .high, cmd1 := .low, cmd0 := .low, din := idle } ∧
    encode .nop idle = { rst := .low, cmd1 := .low, cmd0 := .low, din := idle } ∧
    encode .dbl idle = { rst := .low, cmd1 := .low, cmd0 := .high, din := idle } ∧
    encode (.ld x) idle = { rst := .low, cmd1 := .high, cmd0 := .low, din := dinOfTweak x } ∧
    encode (.ldd x) idle = { rst := .low, cmd1 := .high, cmd0 := .high, din := dinOfTweak x }) ∧
  (∀ (x : Tweak) (j : Fin 128), (dinOfTweak x)[j] = if x.getLsbD j then .high else .low) ∧
  (expandStmt .rst = some [.rst] ∧ expandStmt .nop = some [.nop] ∧ expandStmt .dbl = some [.dbl] ∧
    ∀ (v : AsmValue) (x : Tweak), asmValue? v = some x →
      expandStmt (.ld v) = some [.ld x] ∧ expandStmt (.ldd v) = some [.ldd x]) ∧
  (parseLine ['R', 'S', 'T'] = some .rst ∧ parseLine ['N', 'O', 'P'] = some .nop ∧
    parseLine ['D', 'B', 'L'] = some .dbl) ∧
  (∀ v : AsmValue, v.wellFormed = true →
    parseLine (['L', 'D', ' '] ++ valueText v) = some (.ld v) ∧
    parseLine (['L', 'D', 'D', ' '] ++ valueText v) = some (.ldd v)) ∧
  (∀ (ds : List (Fin 10)) (k : Nat), k = Nat.ofDigits 10 (ds.reverse.map Fin.val) → 1 ≤ k →
    parseLine (['D', 'B', 'L', '*'] ++ ds.map decimalChar) = some (.dblTimes k) ∧
    parseLine (['N', 'O', 'P', '*'] ++ ds.map decimalChar) = some (.nopTimes k) ∧
    ∀ v : AsmValue, v.wellFormed = true →
      parseLine (['T', 'W', 'K', ' '] ++ valueText v ++ [',', ' '] ++ ds.map decimalChar) = some (.twk v k)) ∧
  (∀ line comment : List Char, ';' ∉ line → parseLine (line ++ ';' :: comment) = parseLine line) ∧
  (∀ (line : List Char) (st : AsmStmt), parseLine line = some st → st.wellFormed = true) ∧
  (∀ (line rest : List Char) (st : AsmStmt) (sts : List AsmStmt), '\n' ∉ line → parseLine line = some st →
    parseProgram rest = some sts → parseProgram (line ++ '\n' :: rest) = some (st :: sts))

/-- R49: one to thirty-two hexadecimal digits are their number, zero-extended; sixteen bytes are the value with these
bytes; nothing else is a value; and the two forms of the rule's example are the same. -/
def Obligations.ValuesOfTheNotation : Prop :=
  (∀ ds : List (Fin 16), 1 ≤ ds.length → ds.length ≤ 32 →
    ∃ x, asmValue? (.hex ds) = some x ∧ x.toNat = Nat.ofDigits 16 (ds.reverse.map Fin.val)) ∧
  (∀ bs : List Byte, bs.length = 16 → ∃ x, asmValue? (.bytes bs) = some x ∧ ∀ i, bs[i]? = some (byteOf x i) ∨ 16 ≤ i) ∧
  (∀ ds : List (Fin 16), ds.length = 0 ∨ 32 < ds.length → asmValue? (.hex ds) = none) ∧
  (∀ bs : List Byte, bs.length ≠ 16 → asmValue? (.bytes bs) = none) ∧
  asmValue? (.hex (8 :: List.replicate 31 0)) = asmValue? (.bytes (List.replicate 15 0x00#8 ++ [0x80#8]))

/-- R50: `DBL*k` and `NOP*k`, k at least 1, are k lines, each one edge. -/
def Obligations.RepeatsAreOneEdgeEach : Prop :=
  ∀ (k : Nat) (s : State), 1 ≤ k →
    expandStmt (.dblTimes k) = some (List.replicate k .dbl) ∧
    expandStmt (.nopTimes k) = some (List.replicate k .nop) ∧
    afterIssuing (List.replicate k .nop) s s.outputs ∧
    ∃ o, afterIssuing (List.replicate k .dbl) s o ∧ o.tout = double^[k] s.t ∧ o.tv = s.v

/-- R52: a listing has one row per edge, counted from 1, with the statement, its control word, its operand and the state after the
edge. That the statement column holds the instruction is the model's choice (log 7, DESIGN CHOICE). -/
def Obligations.ListingShowsEachEdge : Prop :=
  ∀ (is : List Instr) (s : State), (listing is s).length = is.length ∧
    ∀ (k : Nat) (i : Instr), is[k]? = some i → ∃ row, (listing is s)[k]? = some row ∧
      row.edge = k + 1 ∧ row.stmt = i ∧ row.cw = encodeCW i ∧ row.din = i.operand? ∧
      afterIssuing (is.take (k + 1)) s { tout := row.t, tv := row.v, red := row.red }
end

