-- ==== Sys2Proof/Laws/Operands.lean ====
section
/-! SUPPORT. Bits, bytes and levels: reading one bit of a value through its bytes or through the levels that drive it. -/

namespace Sys2Proof

@[simp] theorem Level.clean_ofBit (b : Bool) : (Level.ofBit b).clean = true := by cases b <;> rfl

@[simp] theorem Level.bit?_ofBit (b : Bool) : (Level.ofBit b).bit? = some b := by cases b <;> rfl

theorem Level.ofBit_eq_high (b : Bool) : decide (Level.ofBit b = .high) = b := by cases b <;> rfl

end Sys2Proof

namespace Sys2Proof.Machine

theorem byteOf_getLsbD (x : Tweak) (i j : Nat) (hj : j < 8) :
    (byteOf x i).getLsbD j = x.getLsbD (8 * i + j) := by
  simp [byteOf, hj]

theorem bytesOfTweak_getElem (x : Tweak) (i : Nat) (hi : i < 16) :
    (bytesOfTweak x)[i] = byteOf x i := by
  simp [bytesOfTweak]

theorem append_byte_low {n : Nat} (hi : BitVec n) (lo : Byte) (k : Nat) (hk : k < 8) :
    (hi ++ lo).getLsbD k = lo.getLsbD k := by
  rw [BitVec.getLsbD_append, if_pos hk]

theorem append_byte_high {n : Nat} (hi : BitVec n) (lo : Byte) (k : Nat) (hk : 8 ≤ k) :
    (hi ++ lo).getLsbD k = hi.getLsbD (k - 8) := by
  rw [BitVec.getLsbD_append, if_neg (by omega)]

theorem tweakOfBytes_bit (b : TweakBytes) (q r : Nat) (hq : q < 16) (hr : r < 8) :
    (tweakOfBytes b).getLsbD (8 * q + r) = b[q].getLsbD r := by
  rw [tweakOfBytes]
  interval_cases q <;> (repeat with_reducible refine (append_byte_high _ _ _ (by omega)).trans ?_) <;>
    first
    | (with_reducible refine (append_byte_low _ _ _ (by omega)).trans ?_; exact congrArg _ (by omega))
    | exact congrArg _ (by omega)

/-- Bit j of a value is bit j mod 8 of byte j div 8. -/
theorem tweakOfBytes_getLsbD (b : TweakBytes) (j : Nat) (hj : j < 128) :
    (tweakOfBytes b).getLsbD j = (b[j / 8]'(by omega)).getLsbD (j % 8) := by
  rw [← tweakOfBytes_bit b (j / 8) (j % 8) (by omega) (by omega)]
  congr 1
  omega

theorem tweakOfBytes_bytesOfTweak (x : Tweak) : tweakOfBytes (bytesOfTweak x) = x := by
  apply BitVec.eq_of_getLsbD_eq
  intro j hj
  rw [tweakOfBytes_getLsbD _ _ hj, bytesOfTweak_getElem _ _ (by omega),
    byteOf_getLsbD _ _ _ (by omega)]
  congr 1
  omega

theorem bytesOfTweak_tweakOfBytes (b : TweakBytes) : bytesOfTweak (tweakOfBytes b) = b := by
  apply Vector.ext
  intro i hi
  rw [bytesOfTweak_getElem _ _ hi]
  apply BitVec.eq_of_getLsbD_eq
  intro j hj
  rw [byteOf_getLsbD _ _ _ hj, tweakOfBytes_getLsbD _ _ (by omega)]
  have h1 : (8 * i + j) / 8 = i := by omega
  have h2 : (8 * i + j) % 8 = j := by omega
  simp only [h1, h2]

theorem dinOfTweak_getElem (x : Tweak) (j : Nat) (hj : j < 128) :
    (dinOfTweak x)[j] = Level.ofBit (x.getLsbD j) := by
  simp [dinOfTweak, BitVec.getLsbD_eq_getElem hj]

theorem byteOnDin_dinOfTweak (x : Tweak) (i : Fin 16) : byteOnDin (dinOfTweak x) i = byteOf x i := by
  apply BitVec.eq_of_getLsbD_eq
  intro j hj
  rw [byteOf_getLsbD _ _ _ hj]
  simp only [byteOnDin, BitVec.getLsbD_ofFnLE, hj, dite_true]
  rw [dinOfTweak_getElem _ _ (by omega), Level.ofBit_eq_high]

theorem dinOfTweak_clean (x : Tweak) : (dinOfTweak x).toList.all Level.clean = true := by
  rw [List.all_eq_true]
  intro l hl
  rw [dinOfTweak, Vector.toList_ofFn, List.mem_ofFn] at hl
  obtain ⟨j, rfl⟩ := hl
  exact Level.clean_ofBit _

/-- A value that the host drives on `din` is the operand that an edge samples. -/
theorem operandOnDin?_dinOfTweak (x : Tweak) : operandOnDin? (dinOfTweak x) = some x := by
  have h : Vector.ofFn (byteOnDin (dinOfTweak x)) = bytesOfTweak x := by
    simp only [bytesOfTweak, funext (byteOnDin_dinOfTweak x)]
  rw [operandOnDin?, if_pos (dinOfTweak_clean x), h, tweakOfBytes_bytesOfTweak]

end Sys2Proof.Machine
end

