-- ==== Sys2Proof/Laws/Decode.lean ====
section
/-! SUPPORT. Sampling the pins that a control word drives. -/

namespace Sys2Proof

theorem ctrlWord_bits (cw : CtrlWord) :
    ctrlWord (cw.getLsbD 2) (cw.getLsbD 1) (cw.getLsbD 0) = cw := by
  revert cw
  decide

@[simp] theorem sampleCW_ofCW (cw : CtrlWord) (d : DinLevels) : (Pins.ofCW cw d).sampleCW = .ok cw := by
  simp only [Pins.sampleCW, Pins.ofCW, Level.bit?_ofBit, ctrlWord_bits]

@[simp] theorem din_ofCW (cw : CtrlWord) (d : DinLevels) : (Pins.ofCW cw d).din = d := rfl

theorem sampleDin_of_value (p : Pins) (x : Tweak) (h : Machine.operandOnDin? p.din = some x) :
    p.sampleDin = .ok x := by
  simp [Pins.sampleDin, h]

/-- A decoder that has its control word reads `din` only for the two loads. -/
theorem decode_of_sampleCW (p : Pins) (cw : CtrlWord) (h : p.sampleCW = .ok cw) :
    decode p = match decodeCW cw with
      | .reset => .ok .rst
      | .nop => .ok .nop
      | .dbl => .ok .dbl
      | .ld => p.sampleDin.map Instr.ld
      | .ldd => p.sampleDin.map Instr.ldd := by
  cases hc : decodeCW cw <;> simp [decode, h, hc]

end Sys2Proof
end

