-- ==== Sys2Proof/Laws/GfDouble.lean ====
section
/-! SUPPORT. The bytes of Double, and the bits of a shifted byte, read from the value that the bytes hold. -/

namespace Sys2Proof.Machine

/-- Only byte 0 can be touched by the reduction. -/
theorem doubleBytes_byte (b : TweakBytes) (i : Fin 16) :
    (doubleBytes b)[i] =
      if i = 0 ∧ outgoingBit b = true then shiftedByte b 0 ^^^ reductionConstant else shiftedByte b i := by
  by_cases hb : outgoingBit b = true
  · by_cases hi : i = 0
    · subst hi
      simp [doubleBytes, hb]
    · have h0 : ¬ (0 = i.val) := fun h => hi (Fin.ext h.symm)
      simp [doubleBytes, hb, hi, h0]
  · simp [doubleBytes, hb]

theorem shiftRight_seven_getLsbD (b : Byte) (j : Nat) :
    (b >>> 7).getLsbD j = (decide (j = 0) && b.getLsbD 7) := by
  rw [BitVec.getLsbD_ushiftRight]
  by_cases h : j = 0
  · subst h; rfl
  · rw [BitVec.getLsbD_of_ge _ _ (by omega)]; simp [h]

/-- The bit shifted out of the whole value is bit 127. -/
theorem outgoingBit_bytesOfTweak (x : Tweak) : outgoingBit (bytesOfTweak x) = x.getLsbD 127 := by
  have h : ∀ b : Byte, ((b >>> 7) == 1#8) = b.getLsbD 7 := by decide
  rw [outgoingBit, h, bytesOfTweak_getElem _ _ (by omega), byteOf_getLsbD _ _ _ (by omega)]

/-- The carry into byte i is bit 7 of the byte below it, in bit 0. -/
theorem carryIn_getLsbD (x : Tweak) (i : Fin 16) (j : Nat) :
    (carryIn (bytesOfTweak x) i).getLsbD j =
      (decide (0 < i.val) && decide (j = 0) && x.getLsbD (8 * i.val - 1)) := by
  by_cases hi : i.val = 0
  · simp [carryIn, hi]
  · rw [carryIn, if_neg hi, bytesOfTweak_getElem _ _ (by omega), shiftRight_seven_getLsbD,
      byteOf_getLsbD _ _ _ (by omega), show 8 * (i.val - 1) + 7 = 8 * i.val - 1 by omega,
      decide_eq_true (Nat.pos_of_ne_zero hi), Bool.true_and]

/-- Bit j of the shifted byte i is the bit of the value just below bit 8i+j. -/
theorem shiftedByte_getLsbD (x : Tweak) (i : Fin 16) (j : Nat) (hj : j < 8) :
    (shiftedByte (bytesOfTweak x) i).getLsbD j =
      (decide (0 < 8 * i.val + j) && x.getLsbD (8 * i.val + j - 1)) := by
  have hb : (bytesOfTweak x)[i] = byteOf x i := bytesOfTweak_getElem _ _ i.isLt
  rw [shiftedByte, hb, BitVec.getLsbD_or, BitVec.getLsbD_shiftLeft, carryIn_getLsbD]
  by_cases h0 : j = 0
  · subst h0
    by_cases hi : i.val = 0 <;> simp [hi, Nat.pos_of_ne_zero]
  · have he : 8 * i.val + (j - 1) = 8 * i.val + j - 1 := by omega
    have hp : 0 < 8 * i.val + j := by omega
    rw [byteOf_getLsbD _ _ _ (by omega), he]
    have h1 : ¬ j < 1 := by omega
    simp only [hj, h0, hp, h1, decide_true, decide_false, Bool.true_and, Bool.and_false, Bool.false_and,
      Bool.or_false, Bool.not_false]

end Sys2Proof.Machine
end

