-- ==== Sys2Proof/Laws/State.lean ====
section
/-! SUPPORT. What each update of the state leaves in each field. -/

namespace Sys2Proof.Machine

section writeTweak
variable (s : State) (x : Tweak) (b : Bool)
@[simp] theorem State.writeTweak_t : (s.writeTweak x b).t = x := rfl
@[simp] theorem State.writeTweak_v : (s.writeTweak x b).v = s.v := rfl
@[simp] theorem State.writeTweak_red : (s.writeTweak x b).red = b := rfl
@[simp] theorem State.writeTweak_pins : (s.writeTweak x b).pins = s.pins := rfl
@[simp] theorem State.writeTweak_host : (s.writeTweak x b).host = s.host := rfl
@[simp] theorem State.writeTweak_draws : (s.writeTweak x b).draws = s.draws := rfl
end writeTweak

section writeValid
variable (s : State) (b : Bool)
@[simp] theorem State.writeValid_t : (s.writeValid b).t = s.t := rfl
@[simp] theorem State.writeValid_v : (s.writeValid b).v = b := rfl
@[simp] theorem State.writeValid_red : (s.writeValid b).red = s.red := rfl
@[simp] theorem State.writeValid_pins : (s.writeValid b).pins = s.pins := rfl
@[simp] theorem State.writeValid_host : (s.writeValid b).host = s.host := rfl
@[simp] theorem State.writeValid_draws : (s.writeValid b).draws = s.draws := rfl
end writeValid

section hostRest
variable (s : State) (es : List HostEvent)
@[simp] theorem State.hostRest_t : (s.hostRest es).t = s.t := rfl
@[simp] theorem State.hostRest_v : (s.hostRest es).v = s.v := rfl
@[simp] theorem State.hostRest_red : (s.hostRest es).red = s.red := rfl
@[simp] theorem State.hostRest_pins : (s.hostRest es).pins = s.pins := rfl
@[simp] theorem State.hostRest_host : (s.hostRest es).host = es := rfl
@[simp] theorem State.hostRest_draws : (s.hostRest es).draws = s.draws := rfl
end hostRest

section outputs
variable (s : State)
@[simp] theorem State.tout_eq : s.tout = s.t := rfl
@[simp] theorem State.tv_eq : s.tv = s.v := rfl
@[simp] theorem State.redOut_eq : s.redOut = s.red := rfl
end outputs

end Sys2Proof.Machine
end

