-- ==== Sys2Proof/Laws/Ops.lean ====
section
/-! SUPPORT. One lemma per operation and per meaning: everything it can answer. -/

namespace Sys2Proof.Machine

@[simp] theorem drivePins_eq (p : Pins) (s : State) : drivePins p s = .next { s with pins := p } := rfl

@[simp] theorem lookAtOutputs_eq (s : State) : lookAtOutputs s = .next s := rfl

theorem takeTweak_of_valid (s : State) (h : s.v = true) : takeTweak s = .next s := by
  simp [takeTweak, h]

theorem takeTweak_of_not_valid (s : State) (h : s.v = false) : takeTweak s = .fault .tweakNotLoaded := by
  simp [takeTweak, h]

theorem takeTweak_next (s s' : State) (h : takeTweak s = .next s') : s' = s ∧ s.v = true := by
  unfold takeTweak at h
  split at h
  · rename_i hv
    cases h
    exact ⟨rfl, hv⟩
  · cases h

theorem powerUp_next (s s' : State) (h : powerUp s = .next s') :
    s'.t = Config.powerOnTweak s.draws ∧ s'.v = Config.powerOnValid s.draws ∧
      s'.red = Config.powerOnReduced s.draws ∧ s'.draws = s.draws + 1 ∧
      s'.pins = s.pins ∧ s'.host = s.host := by
  cases h
  exact ⟨rfl, rfl, rfl, rfl, rfl, rfl⟩

theorem exec_rst (s : State) : exec .rst s = .next ((s.writeTweak 0 false).writeValid false) := rfl

theorem exec_nop (s : State) : exec .nop s = .next s := rfl

theorem exec_dbl (s : State) : exec .dbl s = .next (s.writeTweak (double s.t) (s.t.getLsbD 127)) := rfl

theorem exec_ld (x : Tweak) (s : State) :
    exec (.ld x) s = .next ((s.writeTweak x false).writeValid true) := rfl

theorem exec_ldd (x : Tweak) (s : State) :
    exec (.ldd x) s = .next ((s.writeTweak (double x) (x.getLsbD 127)).writeValid true) := rfl

/-- Whatever an operation does, it does to the block's own three elements. -/
theorem exec_next (i : Instr) (s s' : State) (h : exec i s = .next s') :
    s' = { s with t := s'.t, v := s'.v, red := s'.red } := by
  cases i <;> (cases h; rfl)

end Sys2Proof.Machine
end

