-- ==== Sys2Proof/Laws/PerInstr.lean ====
section
/-! SUPPORT. The per-instruction family ControlWord: an instruction is well formed, its control word is a row
of the decode table, and the word decodes to the operation of that row. -/

namespace Sys2Proof.Laws.ControlWord

/-- The operation of R40 that an instruction is. -/
def operationOf : Instr → Operation
  | .rst => .reset
  | .nop => .nop
  | .dbl => .dbl
  | .ld _ => .ld
  | .ldd _ => .ldd

/-- What the family says of an instruction. -/
def Statement (i : Instr) : Prop :=
  i.wellFormed = true ∧
    (opcodeRows.filter fun r => r.covers (encodeCW i)).map OpcodeRow.operation = [operationOf i] ∧
    decodeCW (encodeCW i) = operationOf i

theorem rst : Statement .rst := ⟨rfl, by decide, by decide⟩

theorem nop : Statement .nop := ⟨rfl, by decide, by decide⟩

theorem dbl : Statement .dbl := ⟨rfl, by decide, by decide⟩

theorem ld (din : Tweak) : Statement (.ld din) := by
  refine ⟨rfl, ?_, ?_⟩ <;> (simp only [encodeCW, operationOf]; decide)

theorem ldd (din : Tweak) : Statement (.ldd din) := by
  refine ⟨rfl, ?_, ?_⟩ <;> (simp only [encodeCW, operationOf]; decide)

end Sys2Proof.Laws.ControlWord
end

