-- ==== Sys2Proof/Laws/Step.lean ====
section
/-! SUPPORT. The step for each act of the host, and runs of several steps. -/

namespace Sys2Proof.Machine

variable (s : State)

theorem step_idle (h : s.host = []) : step s = .next s := by simp [step, h]

theorem step_drive (p : Pins) (es : List HostEvent) (h : s.host = .drive p :: es) :
    step s = .next { s.hostRest es with pins := p } := by simp [step, h]

theorem step_edge (es : List HostEvent) (h : s.host = .edge :: es) :
    step s = clockEdge (s.hostRest es) := by simp [step, h]

theorem step_look (es : List HostEvent) (h : s.host = .look :: es) :
    step s = .next (s.hostRest es) := by simp [step, h]

theorem step_takeTweak (es : List HostEvent) (h : s.host = .takeTweak :: es) :
    step s = takeTweak (s.hostRest es) := by simp [step, h]

theorem step_powerUp (es : List HostEvent) (h : s.host = .powerUp :: es) :
    step s = powerUp (s.hostRest es) := by simp [step, h]

theorem clockEdge_of_decode (i : Instr) (h : decode s.pins = .ok i) : clockEdge s = exec i s := by
  simp [clockEdge, h]

theorem clockEdge_of_refused (port : InputPort) (h : decode s.pins = .error port) :
    clockEdge s = .refused (.notBinary port) := by
  simp [clockEdge, h]

theorem run_zero : Sys2Proof.core.run 0 s = .next s := rfl

/-- A run whose first step goes through is the run from the next state. -/
theorem run_succ_of_next (k : Nat) (s' : State) (h : step s = .next s') :
    Sys2Proof.core.run (k + 1) s = Sys2Proof.core.run k s' := by
  have h' : Sys2Proof.core.step s = .next s' := h
  simp only [Host.Core.run, h']

/-- Runs compose. -/
theorem run_add (j k : Nat) : ∀ s s' : State, runsTo j s s' →
    Sys2Proof.core.run (j + k) s = Sys2Proof.core.run k s' := by
  induction j with
  | zero =>
    intro s s' h
    cases h
    rw [Nat.zero_add]
  | succ j ih =>
    intro s s' h
    rw [Nat.succ_add]
    simp only [runsTo, Host.Core.run] at h
    cases hs : Sys2Proof.core.step s with
    | next u =>
      rw [hs] at h
      simp only [Host.Core.run, hs]
      exact ih u s' h
    | fault r => rw [hs] at h; cases h
    | refused r => rw [hs] at h; cases h

theorem runsTo_add {j k : Nat} {a b c : State} (h₁ : runsTo j a b) (h₂ : runsTo k b c) :
    runsTo (j + k) a c := by
  rw [runsTo, run_add j k a b h₁]
  exact h₂

/-- Issuing an instruction that completes takes two steps: the ports are driven, then an edge samples them. -/
theorem runsTo_issue (i : Instr) (idle : DinLevels) (es : List HostEvent)
    (h : s.host = issue idle i ++ es) (hd : decode (encode i idle) = .ok i) (s' : State)
    (he : exec i { s.hostRest es with pins := encode i idle } = .next s') : runsTo 2 s s' := by
  have h1 : step s = .next { s.hostRest (.edge :: es) with pins := encode i idle } := step_drive s _ _ h
  have h2 : step { s.hostRest (.edge :: es) with pins := encode i idle } = .next s' := by
    rw [step_edge _ es rfl]
    exact (clockEdge_of_decode _ i hd).trans he
  rw [runsTo, run_succ_of_next _ _ _ h1, run_succ_of_next _ _ _ h2, run_zero]

end Sys2Proof.Machine
end

