-- ==== Sys2Proof/Tests/Slice0.lean ====
section
/-! SUPPORT. Tests whose expected results are the spec's own vectors (95_test_vectors.md) or hand work from
its rules, and a witness of the hypotheses of each statement. -/

namespace Sys2Proof.Tests

open Sys2Proof.Machine

/-- A state with the given block, ports and host script. -/
def st (t : Tweak) (v red : Bool) (p : Pins) (es : List HostEvent) : State :=
  { t := t, v := v, red := red, pins := p, host := es, draws := 0 }

/-- The block after a step, when the step goes through. -/
def blockAfter (o : Host.Outcome State Fault Refusal) : Option (Tweak × Bool × Bool) :=
  match o with
  | .next s => some (s.t, s.v, s.red)
  | .fault _ => none
  | .refused _ => none

/-- Levels on `din` with an unknown bit 5, and otherwise 0 (the vector C-X). -/
def dinX5 : DinLevels := (dinOfTweak 0).set 5 .unknown

/-- Levels on `din` that are all unknown (the vector C-Xdc). -/
def dinX : DinLevels := Vector.replicate 128 .unknown

/-! ## Well-formedness: each check refuses an ill-formed term -/

theorem smoke_every_instruction_is_well_formed : (Instr.ldd 0xFF#128).wellFormed = true := by decide

theorem smoke_unclean_rst : ({ rst := .highZ, cmd1 := .low, cmd0 := .low, din := dinOfTweak 0 } : Pins).wellFormed = false := by
  decide

theorem smoke_unclean_cmd1 : ({ rst := .low, cmd1 := .unstable, cmd0 := .low, din := dinOfTweak 0 } : Pins).wellFormed = false := by
  decide

theorem smoke_unclean_cmd0 : ({ rst := .low, cmd1 := .low, cmd0 := .unknown, din := dinOfTweak 0 } : Pins).wellFormed = false := by
  decide

theorem smoke_unclean_din : ({ rst := .low, cmd1 := .high, cmd0 := .low, din := dinX5 } : Pins).wellFormed = false := by
  decide

theorem smoke_unclean_din_not_sampled :
    ({ rst := .low, cmd1 := .low, cmd0 := .high, din := dinX5 } : Pins).wellFormed = true := by decide

theorem smoke_hex_without_digits : (AsmValue.hex []).wellFormed = false := by decide

theorem smoke_hex_with_33_digits : (AsmValue.hex (List.replicate 33 1)).wellFormed = false := by decide

theorem smoke_fifteen_bytes : (AsmValue.bytes (List.replicate 15 0)).wellFormed = false := by decide

theorem smoke_dbl_times_0 : (AsmStmt.dblTimes 0).wellFormed = false := by decide

theorem smoke_nop_times_0 : (AsmStmt.nopTimes 0).wellFormed = false := by decide

theorem smoke_twk_0 : (AsmStmt.twk (.hex [1]) 0).wellFormed = false := by decide

theorem smoke_ld_of_no_value : (AsmStmt.ld (.hex [])).wellFormed = false := by decide

theorem smoke_ldd_of_no_value : (AsmStmt.ldd (.bytes [])).wellFormed = false := by decide

/-! ## Decoding: words written out from the table of R40 -/

/-- `RST` with each `cmd`, "1 00" to "1 11" (R40, R42). -/
theorem test_decode_rst :
    [0b100, 0b101, 0b110, 0b111].map (decodeTableWord 8) = List.replicate 4 (some .rst) := by decide

/-- "0 00" (R69). -/
theorem test_decode_nop : decode { rst := .low, cmd1 := .low, cmd0 := .low, din := dinX } = .ok .nop := by decide

/-- "0 01" (R70). -/
theorem test_decode_dbl : decode { rst := .low, cmd1 := .low, cmd0 := .high, din := dinX } = .ok .dbl := by decide

/-- "0 10" with only `din[127]` high (R71). -/
theorem test_decode_ld : decode { rst := .low, cmd1 := .high, cmd0 := .low, din := (dinOfTweak 0).set 127 .high } =
    .ok (.ld 0x80000000000000000000000000000000#128) := by decide

/-- "0 11" with only `din[8]` high, which is bit 0 of byte 1 (R72, R30). -/
theorem test_decode_ldd : decode { rst := .low, cmd1 := .high, cmd0 := .high, din := (dinOfTweak 0).set 8 .high } =
    .ok (.ldd 0x100#128) := by decide

/-- A number that is no 3-bit word is no instruction. -/
theorem test_decode_no_word : decodeTableWord 8 0b1000 = none := by decide

/-! ## The function Double: the vectors V1 to V13 and L-INV1 to L-INV4 -/

theorem test_double_vectors : ([
    0x00000000000000000000000000000000, 0x00000000000000000000000000000001,
    0x00000000000000000000000000000080, 0x40000000000000000000000000000000,
    0x80000000000000000000000000000000, 0xFFFFFFFFFFFFFFFFFFFFFFFFFFFFFFFF,
    0x80000000000000000000000000000001, 0x80000000000000000000000000000087,
    0xAAAAAAAAAAAAAAAAAAAAAAAAAAAAAAAA, 0x55555555555555555555555555555555,
    0x0F0E0D0C0B0A09080706050403020100, 0x80808080808080808080808080808080,
    0x0123456789ABCDEFFEDCBA9876543210] : List Tweak).map double = [
    0x00000000000000000000000000000000, 0x00000000000000000000000000000002,
    0x00000000000000000000000000000100, 0x80000000000000000000000000000000,
    0x00000000000000000000000000000087, 0xFFFFFFFFFFFFFFFFFFFFFFFFFFFFFF79,
    0x00000000000000000000000000000085, 0x00000000000000000000000000000189,
    0x555555555555555555555555555555D3, 0xAAAAAAAAAAAAAAAAAAAAAAAAAAAAAAAA,
    0x1E1C1A18161412100E0C0A0806040200, 0x01010101010101010101010101010187,
    0x02468ACF13579BDFFDB97530ECA86420] := by decide

/-- The byte columns of V13. -/
theorem test_double_bytes :
    doubleBytes #v[0x10, 0x32, 0x54, 0x76, 0x98, 0xBA, 0xDC, 0xFE, 0xEF, 0xCD, 0xAB, 0x89, 0x67, 0x45, 0x23, 0x01] =
      #v[0x20, 0x64, 0xA8, 0xEC, 0x30, 0x75, 0xB9, 0xFD, 0xDF, 0x9B, 0x57, 0x13, 0xCF, 0x8A, 0x46, 0x02] := by
  decide

theorem test_halve_vectors : ([0x87, 0x1, 0x85, 0x10E] : List Tweak).map halve =
    [0x80000000000000000000000000000000, 0x80000000000000000000000000000043,
     0x80000000000000000000000000000001, 0x00000000000000000000000000000087] := by decide

/-! ## One edge: vectors of 95_test_vectors.md section 2.5 -/

/-- C-RST-LDD. -/
theorem test_rst_wins_over_ldd :
    blockAfter (step (st 0x87 true true (Pins.ofCW 0b111#3 (dinOfTweak 5)) [.edge])) = some (0, false, false) := by
  decide

/-- C-RST. -/
theorem test_rst : blockAfter (exec .rst (st 0x87 true true Pins.undriven [])) = some (0, false, false) := by decide

/-- C-NOP0. -/
theorem test_nop_keeps_flags :
    blockAfter (step (st 0x87 false true (Pins.ofCW 0b000#3 dinX) [.edge])) = some (0x87, false, true) := by decide

/-- C-DBL-V0b. -/
theorem test_dbl_reduces_while_not_valid :
    blockAfter (exec .dbl (st 0xFFFFFFFFFFFFFFFFFFFFFFFFFFFFFFFF false false Pins.undriven [])) =
      some (0xFFFFFFFFFFFFFFFFFFFFFFFFFFFFFF79, false, true) := by decide

/-- C-Xdc: `din` is not examined by DBL. -/
theorem test_dbl_with_unknown_din :
    blockAfter (step (st 0x2 true false (Pins.ofCW 0b001#3 dinX) [.edge])) = some (0x4, true, false) := by decide

/-- C-LD: a load does not double, whatever `din[127]` is, and clears `RED`. -/
theorem test_ld_does_not_double :
    blockAfter (step (st 0x87 true true (Pins.ofCW 0b010#3 (dinOfTweak 0x80000000000000000000000000000000)) [.edge])) =
      some (0x80000000000000000000000000000000, true, false) := by decide

/-- C-X. -/
theorem test_ld_of_unknown_bit_is_refused :
    (match step (st 0 false false (Pins.ofCW 0b010#3 dinX5) [.edge]) with
      | .refused r => r == .notBinary .din
      | _ => false) = true := by decide

/-- C-LDD. -/
theorem test_ldd_reduces :
    blockAfter (step (st 0x1234 false false (Pins.ofCW 0b011#3 (dinOfTweak 0x80000000000000000000000000000000)) [.edge])) =
      some (0x87, true, true) := by decide +kernel

/-- P3, after edge 5: the host takes `tout` while `tv` = 0. -/
theorem test_take_while_not_valid_faults :
    (match step (st 0 false false Pins.undriven [.takeTweak]) with
      | .fault r => r == .tweakNotLoaded
      | _ => false) = true := by decide

/-! ## The notation -/

/-- The example of R71 in the byte form, a `TWK` (R51) and a repeat with a comment (R50, R48). -/
theorem test_assemble :
    assemble "RST ; start\nLD [10 32 54 76 98 BA DC FE EF CD AB 89 67 45 23 01]\nTWK 0x1, 3\nNOP*2\nLDD 0x80".toList =
      some [.rst, .ld 0x0123456789ABCDEFFEDCBA9876543210, .ld 0x1, .dbl, .dbl, .nop, .nop, .ldd 0x80] := by
  decide

theorem test_lower_case_mnemonic_is_no_statement : parseLine "dbl".toList = none := by decide

/-- P1, edges 3 and 6: two rows of its listing. -/
theorem test_listing : listing [.dbl, .nop] (st 0x1 true false Pins.undriven []) =
    [{ edge := 1, stmt := .dbl, cw := 0b001, din := none, t := 0x2, v := true, red := false },
     { edge := 2, stmt := .nop, cw := 0b000, din := none, t := 0x2, v := true, red := false }] := by decide

/-! ## Witnesses: the hypotheses of each statement can be met -/

theorem witness_StepRunsTheSampledOperation :
    (∃ s : State, s.host = .edge :: [] ∧ decode s.pins = .ok .dbl) ∧
      (∃ s : State, s.host = .edge :: [] ∧ decode s.pins = .error .rst) :=
  ⟨⟨st 1 true false (Pins.ofCW 0b001#3 dinX) [.edge], rfl, by decide⟩,
    ⟨st 1 true false Pins.undriven [.edge], rfl, by decide⟩⟩

theorem witness_TableWordRunsNext : decodeTableWord 8 0b011 = some (.ldd 0) := by decide

theorem witness_ControlWordSelectsOperation : ∃ s : State, s.host = .edge :: [] ∧
    s.pins = { rst := Level.ofBit false, cmd1 := Level.ofBit true, cmd0 := Level.ofBit false, din := dinOfTweak 7 } :=
  ⟨st 1 true false ⟨.low, .high, .low, dinOfTweak 7⟩ [.edge], rfl, rfl⟩

theorem witness_EveryControlWordIsDefined : ∃ s : State, s.host = .edge :: [] ∧
    s.pins = Pins.ofCW 0b111#3 (dinOfTweak 7) :=
  ⟨st 1 true false (Pins.ofCW 0b111#3 (dinOfTweak 7)) [.edge], rfl, rfl⟩

theorem dinX5_unclean : ∃ l ∈ dinX5.toList, l.clean = false :=
  List.any_eq_true.1 (by decide : dinX5.toList.any (fun l => l.clean == false) = true) |>.imp
    fun _ h => ⟨h.1, by simpa using h.2⟩

theorem witness_NonBinaryInputIsRefused :
    (∃ s : State, s.host = .edge :: [] ∧ s.pins.rst.clean = false ∧ step s = .refused (.notBinary .rst)) ∧
    (∃ s : State, s.host = .edge :: [] ∧ s.pins.rst = .high ∧ s.pins.cmd0.clean = false ∧
      step s = .refused (.notBinary .cmd)) ∧
    (∃ s : State, s.host = .edge :: [] ∧ s.pins = Pins.ofCW 0b010#3 dinX5 ∧ (∃ l ∈ dinX5.toList, l.clean = false) ∧
      step s = .refused (.notBinary .din)) :=
  ⟨⟨st 1 true false Pins.undriven [.edge], rfl, by decide, rfl⟩,
    ⟨st 1 true false ⟨.high, .low, .unknown, dinX⟩ [.edge], rfl, rfl, by decide, rfl⟩,
    ⟨st 1 true false (Pins.ofCW 0b010#3 dinX5) [.edge], rfl, rfl, dinX5_unclean, by rfl⟩⟩

theorem witness_DecodeAndEncodeAgree : (Instr.ld 7).wellFormed = true ∧
    decode (Pins.ofCW 0b010#3 (dinOfTweak 7)) = .ok (.ld 7) ∧ decode (Pins.ofCW 0b101#3 dinX) = .ok .rst := by
  decide

theorem witness_DinIsDontCare :
    (∃ s : State, s.host = .drive Pins.undriven :: []) ∧
      (∃ s : State, s.host = .edge :: [] ∧ decode s.pins = .ok .rst ∧ Instr.rst.operand? = none) :=
  ⟨⟨st 1 true false Pins.undriven [.drive Pins.undriven], rfl⟩,
    ⟨st 1 true false (Pins.ofCW 0b100#3 dinX) [.edge], rfl, by decide, rfl⟩⟩

theorem witness_OutputsHoldBetweenEdges :
    (HostEvent.edge ∉ [HostEvent.drive Pins.undriven, .look, .takeTweak] ∧
      HostEvent.powerUp ∉ [HostEvent.drive Pins.undriven, .look, .takeTweak] ∧
      (st 1 true false Pins.undriven [.drive Pins.undriven, .look, .takeTweak, .edge]).v = true ∧
      (st 1 true false Pins.undriven [.drive Pins.undriven, .look, .takeTweak, .edge]).host =
        [.drive Pins.undriven, .look, .takeTweak] ++ [.edge]) ∧
    (HostEvent.takeTweak ∉ [HostEvent.look] ∧ (st 1 false false Pins.undriven [.look]).host = [.look] ++ []) := by
  decide +kernel

theorem witness_ReadsAndSamplesHaveNoSideEffect :
    (∃ s : State, s.host = List.replicate 2 .look ++ [.edge]) ∧
      (∃ s s' : State, s.host = .edge :: [] ∧ step s = .next s') :=
  ⟨⟨st 1 true false Pins.undriven [.look, .look, .edge], rfl⟩,
    ⟨st 1 true false (Pins.ofCW 0b000#3 dinX) [.edge], _, rfl, rfl⟩⟩

theorem witness_RstClearsTheBlock : ∃ (s : State) (p : Pins), p.rst = .high ∧ s.host = .drive p :: [] :=
  ⟨st 1 true true Pins.undriven [.drive (Pins.ofCW 0b100#3 dinX)], Pins.ofCW 0b100#3 dinX, rfl, rfl⟩

theorem witness_ResetWinsOverCommand : ∃ s : State, s.host = .edge :: [] ∧ s.pins.rst = .high ∧
    s.pins.cmd1.clean = true ∧ s.pins.cmd0.clean = true :=
  ⟨st 1 true true (Pins.ofCW 0b111#3 dinX) [.edge], rfl, by decide, by decide, by decide⟩

theorem witness_DblDoublesTheTweak :
    (∃ s : State, s.t = 0) ∧ (∃ s : State, s.t = 0x80000000000000000000000000000000#128) ∧
      (∃ s : State, s.t = 0x80000000000000000000000000000001#128) :=
  ⟨⟨st 0 true true Pins.undriven [], rfl⟩, ⟨st 0x80000000000000000000000000000000 true true Pins.undriven [], rfl⟩,
    ⟨st 0x80000000000000000000000000000001 true true Pins.undriven [], rfl⟩⟩

theorem witness_LdLoadsTheOperand : ∃ s : State, s.host = .edge :: [] ∧ s.pins = Pins.ofCW 0b010#3 dinX5 ∧
    ∃ l ∈ dinX5.toList, l.clean = false :=
  ⟨st 1 true true (Pins.ofCW 0b010#3 dinX5) [.edge], rfl, rfl, dinX5_unclean⟩

theorem witness_LddLoadsTheDouble : ∃ s : State, s.host = .edge :: [] ∧ s.pins = Pins.ofCW 0b011#3 dinX5 ∧
    ∃ l ∈ dinX5.toList, l.clean = false :=
  ⟨st 1 true true (Pins.ofCW 0b011#3 dinX5) [.edge], rfl, rfl, dinX5_unclean⟩

theorem witness_DoubleIsTheByteLoop : ∀ i : Fin 16, i ∈ List.finRange 16 := List.mem_finRange

theorem witness_DoubleBitByBit : (8 ≤ 8 ∧ 8 ≤ 127) ∧ (8 ≤ 127 ∧ 127 ≤ 127) := by decide

theorem witness_ReductionConstantIsTheFieldPolynomial : (0 < 1 ∧ 1 < 16) ∧ (0 < 15 ∧ 15 < 16) := by decide

theorem witness_ReductionReadsTheInputsBit127 :
    (0x80000000000000000000000000000000#128).getLsbD 127 = true ∧ (1#128).getLsbD 127 = false := by decide

theorem witness_DoubleMultipliesByX : 127 < 128 := by decide

theorem witness_DoubleIsZeroOnlyAtZero :
    (0x40000000000000000000000000000000#128).getLsbD 127 = false ∧
      (0x80000000000000000000000000000000#128).getLsbD 127 = true := by decide

theorem witness_IteratedDoubleMultipliesByPowers : 0 ≤ 127 ∧ 127 ≤ 127 := by decide

theorem witness_DoubleHasFullOrder : (1 : Tweak) ≠ 0 := by decide

theorem witness_DoubleCornerCases :
    14 < 15 ∧ (0x40000000000000000000000000000000#128).getLsbD 126 = true ∧ (1 : Tweak) ≠ 2 := by decide

theorem witness_PortsCarryBytesUnswapped : ∃ (b : TweakBytes) (s : State), s.host = .edge :: [] ∧
    s.pins = Pins.ofCW 0b010#3 (dinOfBytes b) :=
  ⟨Vector.replicate 16 0x80#8, st 1 true true (Pins.ofCW 0b010#3 (dinOfBytes (Vector.replicate 16 0x80#8))) [.edge], rfl, rfl⟩

theorem witness_OnlyTheWritersChangeTheBlock :
    ∃ s s' : State, step s = .next s' ∧ s.host.head? ≠ some .powerUp ∧ s'.t ≠ s.t ∧ s'.v ≠ s.v ∧ s'.red ≠ s.red :=
  ⟨st 5 true true (Pins.ofCW 0b100#3 dinX) [.edge], st 0 false false (Pins.ofCW 0b100#3 dinX) [],
    rfl, by decide, by decide, by decide, by decide⟩

theorem witness_OnlyTheWritersChangeTheBlock_pins :
    ∃ s s' : State, step s = .next s' ∧ s.host.head? ≠ some .powerUp ∧ s'.pins ≠ s.pins :=
  ⟨st 5 true true Pins.undriven [.drive (Pins.ofCW 0b100#3 dinX)], st 5 true true (Pins.ofCW 0b100#3 dinX) [],
    rfl, by decide, by decide +kernel⟩

theorem witness_StepKeepsTweakInvariant : ∃ s s' : State, s.Inv ∧ step s = .next s' ∧ s'.red = true :=
  ⟨st 0x80000000000000000000000000000000 true false (Pins.ofCW 0b001#3 dinX) [.edge],
    _, ⟨⟨by decide, by decide⟩, by decide⟩, rfl, by decide +kernel⟩

theorem witness_TweakSequenceIsRepeatedDoubling :
    (∃ s : State, s.host = .edge :: ([.drive (Pins.ofCW 0b001#3 dinX), .edge, .takeTweak, .edge] ++ []) ∧
      decode s.pins = .ok (.ld 7) ∧
      HostEvent.powerUp ∉ [HostEvent.drive (Pins.ofCW 0b001#3 dinX), .edge, .takeTweak, .edge] ∧
      sampled s.pins [.drive (Pins.ofCW 0b001#3 dinX), .edge, .takeTweak, .edge] = [Instr.dbl, .dbl].map Except.ok ∧
      ∀ i ∈ [Instr.dbl, .dbl], i = .dbl ∨ i = .nop) ∧
    (∃ s : State, s.host = .edge :: [] ∧ decode s.pins = .ok (.ldd 7)) :=
  ⟨⟨st 1 false false (Pins.ofCW 0b010#3 (dinOfTweak 7))
      [.edge, .drive (Pins.ofCW 0b001#3 dinX), .edge, .takeTweak, .edge],
      rfl, by decide, by decide +kernel, by decide +kernel, by decide⟩,
    ⟨st 1 false false (Pins.ofCW 0b011#3 (dinOfTweak 7)) [.edge], rfl, by decide⟩⟩

theorem witness_TwkGeneratesTheTweaks : asmValue? (.hex [7]) = some 7 ∧ 1 ≤ 2 ∧ 1 < 2 ∧
    ∃ u : State, u.outputs = { tout := 14, tv := true, red := false } ∧ u.host = .takeTweak :: [] :=
  ⟨by decide, by decide, by decide, st 14 true false Pins.undriven [.takeTweak], rfl, rfl⟩

theorem witness_SectorNeedsCeilTweaks : 16 ≤ 16 ∧ tweakCount 16 = 1 ∧ 16 ≤ 33 ∧ tweakCount 33 = 3 := by decide

theorem witness_LoadOrResetForgetsThePast :
    (∃ s₁ s₂ : State, s₁.sameOutside s₂ ∧ s₁.host = .edge :: [.look] ∧ decode s₁.pins = .ok .rst ∧ s₁.t ≠ s₂.t) ∧
    (∃ s₁ s₂ : State, s₁.sameOutside s₂ ∧ s₁.host = .edge :: [.look] ∧ decode s₁.pins = .ok (.ld 7) ∧ s₁.t ≠ s₂.t) ∧
    (∃ s₁ s₂ : State, s₁.sameOutside s₂ ∧ s₁.host = .edge :: [.look] ∧ decode s₁.pins = .ok (.ldd 7) ∧ s₁.t ≠ s₂.t) :=
  ⟨⟨st 1 true false (Pins.ofCW 0b100#3 dinX) [.edge, .look], st 2 false true (Pins.ofCW 0b100#3 dinX) [.edge, .look],
      ⟨rfl, rfl, rfl⟩, rfl, by decide, by decide⟩,
    ⟨st 1 true false (Pins.ofCW 0b010#3 (dinOfTweak 7)) [.edge, .look],
      st 2 false true (Pins.ofCW 0b010#3 (dinOfTweak 7)) [.edge, .look], ⟨rfl, rfl, rfl⟩, rfl, by decide, by decide⟩,
    ⟨st 1 true false (Pins.ofCW 0b011#3 (dinOfTweak 7)) [.edge, .look],
      st 2 false true (Pins.ofCW 0b011#3 (dinOfTweak 7)) [.edge, .look], ⟨rfl, rfl, rfl⟩, rfl, by decide, by decide⟩⟩

theorem witness_ErrorsPropagate : (1 : Tweak) ≠ 2 ∧ ∀ i ∈ [Instr.dbl, .nop], i = .dbl ∨ i = .nop := by decide

theorem witness_StopsAreExactlyTheTwo :
    (∃ s : State, Sys2Proof.core.run 1 s = .fault .tweakNotLoaded) ∧
    (∃ s : State, Sys2Proof.core.run 2 s = .refused (.notBinary .rst)) ∧
    (∃ s : State, Sys2Proof.core.run 1 s = .refused (.notBinary .cmd) ∧ s.pins.wellFormed = false) ∧
    (∃ s : State, Sys2Proof.core.run 1 s = .refused (.notBinary .din) ∧ s.pins.wellFormed = false) :=
  ⟨⟨st 0 false false Pins.undriven [.takeTweak], rfl⟩, ⟨st 0 false false Pins.undriven [.look, .edge], rfl⟩,
    ⟨st 1 true false ⟨.low, .unknown, .high, dinX⟩ [.edge], rfl, by decide⟩,
    ⟨st 1 true false (Pins.ofCW 0b011#3 dinX5) [.edge], by rfl, by decide⟩⟩

theorem witness_TakingAnUnloadedTweakFaults :
    (∃ (s : State) (o : Outputs), afterIssuing [.dbl] s o ∧ o.tv = false ∧ Instr.rst ∉ [Instr.dbl]) ∧
    (∃ (s : State) (o : Outputs), afterIssuing [.dbl, .rst] s o ∧ o.tv = false ∧ Instr.rst ∈ [Instr.dbl, .rst]) ∧
    (∃ s : State, s.host = .takeTweak :: [] ∧ s.tv = false) ∧ (∃ s : State, s.host = .takeTweak :: [] ∧ s.tv = true) :=
  ⟨⟨st 1 false false Pins.undriven [], { tout := double 1, tv := false, red := false },
      fun _ _ => ⟨_, rfl, by simp [State.outputs, st]; decide, rfl⟩, rfl, by decide⟩,
    ⟨st 1 false false Pins.undriven [], { tout := 0, tv := false, red := false }, fun _ _ => ⟨_, rfl, rfl, rfl⟩, rfl, by decide⟩,
    ⟨st 0 false false Pins.undriven [.takeTweak], rfl, rfl⟩, ⟨st 0 true false Pins.undriven [.takeTweak], rfl, rfl⟩⟩

theorem witness_PowerUpDrawsTheState : ∃ s u : State, s.host = .powerUp :: [] ∧ step s = .next u :=
  ⟨st 0 false false Pins.undriven [.powerUp], _, rfl, rfl⟩

theorem witness_BootSequenceLoadsATweak :
    (∃ s : State, s.host = .powerUp :: issueAll dinX (List.replicate 1 .rst ++ [.ld 7]) ++ .takeTweak :: []) ∧
      (∃ s : State, s.host = .powerUp :: issueAll dinX (List.replicate 1 .rst ++ [.ldd 7]) ++ .takeTweak :: []) :=
  ⟨⟨st 0 false false Pins.undriven (.powerUp :: issueAll dinX [.rst, .ld 7] ++ [.takeTweak]), rfl⟩,
    ⟨st 0 false false Pins.undriven (.powerUp :: issueAll dinX [.rst, .ldd 7] ++ [.takeTweak]), rfl⟩⟩

theorem witness_OneResetEdgeIsEnough : 1 ≤ 1 := by decide

theorem witness_StatementsAndComments :
    asmValue? (.hex [7]) = some 7 ∧ (AsmValue.hex [7]).wellFormed = true ∧
      (AsmValue.bytes (List.replicate 16 0x80#8)).wellFormed = true ∧
      12 = Nat.ofDigits 10 (([1, 2] : List (Fin 10)).reverse.map Fin.val) ∧ 1 ≤ 12 ∧ ';' ∉ "DBL ".toList ∧
      parseLine "DBL*2".toList = some (.dblTimes 2) ∧ '\n' ∉ "DBL*2".toList ∧
      parseProgram "LD 0x7".toList = some [.ld (.hex [7])] := by decide

theorem witness_ValuesOfTheNotation :
    (List.replicate 1 (1 : Fin 16)).length = 1 ∧ (List.replicate 32 (1 : Fin 16)).length ≤ 32 ∧
      (List.replicate 16 (1 : Byte)).length = 16 ∧ 32 < (List.replicate 33 (1 : Fin 16)).length ∧
      (List.replicate 17 (1 : Byte)).length ≠ 16 := by decide

theorem witness_RepeatsAreOneEdgeEach : 1 ≤ 1 := by decide

theorem witness_ListingShowsEachEdge : [Instr.dbl, .nop][1]? = some .nop := rfl

end Sys2Proof.Tests
end

/-! The rules about the machine that the statements on the state need, and the settlement of those statements. -/

section
/-! PROOFS. Double on the whole value: the shift and the conditional XOR of R54, and what follows from it. -/

namespace Sys2Proof.Machine

/-- A bit of Double is the bit below it, plus the bit of the reduction constant when bit 127 leaves (R55). -/
theorem double_getLsbD (x : Tweak) (j : Nat) (hj : j < 128) :
    (double x).getLsbD j =
      ((decide (0 < j) && x.getLsbD (j - 1)) ^^ (x.getLsbD 127 && reductionConstant.getLsbD j)) := by
  have hbyte := doubleBytes_byte (bytesOfTweak x) ⟨j / 8, by omega⟩
  have hshift := shiftedByte_getLsbD x ⟨j / 8, by omega⟩ (j % 8) (by omega)
  simp only [Fin.getElem_fin, outgoingBit_bytesOfTweak, Nat.div_add_mod] at hbyte hshift
  rw [double, tweakOfBytes_getLsbD _ _ hj, hbyte]
  by_cases h0 : j < 8
  · have hq : (⟨j / 8, by omega⟩ : Fin 16) = 0 := Fin.ext (Nat.div_eq_of_lt h0)
    rw [hq, Nat.mod_eq_of_lt h0] at hshift
    rw [hq, Nat.mod_eq_of_lt h0]
    cases x.getLsbD 127 <;> simp [-BitVec.getLsbD_eq_getElem, hshift]
  · have hq : ¬ (⟨j / 8, by omega⟩ : Fin 16) = 0 := fun h =>
      h0 (Nat.lt_of_div_eq_zero (by decide) (congrArg Fin.val h))
    have hconst : reductionConstant.getLsbD j = false := BitVec.getLsbD_of_ge _ _ (by omega)
    simp [hq, hshift, hconst]

/-- Double is a shift to the left and the conditional XOR with 0x87 (R54). -/
theorem double_eq_shift_xor (x : Tweak) :
    double x = (x <<< 1) ^^^ (if x.getLsbD 127 then 0x87#128 else 0#128) := by
  have hconst : 0x87#128 = reductionConstant.setWidth 128 := rfl
  apply BitVec.eq_of_getLsbD_eq
  intro j hj
  rw [double_getLsbD x j hj]
  have hpos : decide (0 < j) = !decide (j < 1) := by simp [Nat.pos_iff_ne_zero]
  rw [BitVec.getLsbD_xor, BitVec.getLsbD_shiftLeft, hpos, hconst]
  cases x.getLsbD 127 <;> simp [-BitVec.getLsbD_eq_getElem, hj]

@[simp] theorem double_zero : double 0#128 = 0#128 := by decide

/-- The bit shifted out comes back as bit 0 (R55). -/
theorem double_getLsbD_zero (x : Tweak) : (double x).getLsbD 0 = x.getLsbD 127 := by
  have hconst : reductionConstant.getLsbD 0 = true := rfl
  rw [double_getLsbD x 0 (by decide), hconst, Bool.and_true]
  exact Bool.false_xor _

/-- Bit 127 tells whether Double is more than the shift (R57, R62). -/
theorem double_ne_shift_iff (x : Tweak) : double x ≠ x <<< 1 ↔ x.getLsbD 127 = true := by
  rw [double_eq_shift_xor]
  cases hc : x.getLsbD 127
  · simp
  · have hne : (x <<< 1) ^^^ 0x87#128 ≠ x <<< 1 := fun h => by
      have := congrArg (·.getLsbD 0) h
      simp at this
    simp [hne]

end Sys2Proof.Machine
end

section
/-! PROOFS. The state that an operation leaves, as a function: every operation completes (R73). -/

namespace Sys2Proof.Machine

/-- The state that an operation leaves; `exec_eq_next` ties it to the model. -/
def State.perform (s : State) : Instr → State
  | .rst => (s.writeTweak 0 false).writeValid false
  | .nop => s
  | .dbl => s.writeTweak (double s.t) (s.t.getLsbD 127)
  | .ld x => (s.writeTweak x false).writeValid true
  | .ldd x => (s.writeTweak (double x) (x.getLsbD 127)).writeValid true

section cases
variable (s : State) (x : Tweak)
@[simp] theorem State.perform_rst : s.perform .rst = (s.writeTweak 0 false).writeValid false := rfl
@[simp] theorem State.perform_nop : s.perform .nop = s := rfl
@[simp] theorem State.perform_dbl : s.perform .dbl = s.writeTweak (double s.t) (s.t.getLsbD 127) := rfl
@[simp] theorem State.perform_ld : s.perform (.ld x) = (s.writeTweak x false).writeValid true := rfl
@[simp] theorem State.perform_ldd :
    s.perform (.ldd x) = (s.writeTweak (double x) (x.getLsbD 127)).writeValid true := rfl
end cases

theorem exec_eq_next (i : Instr) (s : State) : exec i s = .next (s.perform i) := by
  cases i <;> rfl

section frame
variable (s : State) (i : Instr)
@[simp] theorem State.perform_pins : (s.perform i).pins = s.pins := by cases i <;> rfl
@[simp] theorem State.perform_host : (s.perform i).host = s.host := by cases i <;> rfl
@[simp] theorem State.perform_draws : (s.perform i).draws = s.draws := by cases i <;> rfl
end frame

theorem State.outputs_eq_iff (s u : State) :
    s.outputs = u.outputs ↔ s.t = u.t ∧ s.v = u.v ∧ s.red = u.red := by
  simp [State.outputs]

/-- What an operation leaves in the block depends on the block alone (R26). -/
theorem State.outputs_perform_congr {s u : State} (h : s.outputs = u.outputs) (i : Instr) :
    (s.perform i).outputs = (u.perform i).outputs := by
  rw [State.outputs_eq_iff] at h ⊢
  obtain ⟨ht, hv, hred⟩ := h
  cases i <;> simp [ht, hv, hred]

theorem State.outputs_foldl_perform_congr (is : List Instr) : ∀ {s u : State}, s.outputs = u.outputs →
    (is.foldl State.perform s).outputs = (is.foldl State.perform u).outputs := by
  induction is with
  | nil => exact id
  | cons i is ih => exact fun h => ih (State.outputs_perform_congr h i)

/-- LD and LDD set `V`, RESET clears it, NOP and DBL keep it (R16). -/
theorem State.perform_v_iff (s : State) (i : Instr) :
    (s.perform i).v = true ↔ i.operand?.isSome = true ∨ (s.v = true ∧ i ≠ .rst) := by
  cases i <;> simp [Instr.operand?]

/-- Only RESET and the loads write `V` (R13). -/
theorem State.writer_of_perform_v_ne {s : State} {i : Instr} (h : (s.perform i).v ≠ s.v) :
    i = .rst ∨ i.operand?.isSome = true := by
  cases i <;> simp [Instr.operand?] at h ⊢

/-- Every operation but NOP is a writer of `T` and `RED` (R13). -/
theorem Instr.writer_of_ne_nop {i : Instr} (h : i ≠ .nop) :
    i = .rst ∨ i = .dbl ∨ i.operand?.isSome = true := by
  cases i <;> simp [Instr.operand?] at h ⊢

end Sys2Proof.Machine
end

section
/-! PROOFS. The decoder: what an instruction drives decodes to it, and an operation without an operand
does not look at `din`. -/

namespace Sys2Proof

open Laws.ControlWord in
theorem decodeCW_encodeCW (i : Instr) : decodeCW (encodeCW i) = operationOf i := by
  cases i with
  | rst => exact rst.2.2
  | nop => exact nop.2.2
  | dbl => exact dbl.2.2
  | ld x => exact (ld x).2.2
  | ldd x => exact (ldd x).2.2

theorem decode_encode (i : Instr) (idle : DinLevels) : decode (encode i idle) = .ok i := by
  have hcw : (encode i idle).sampleCW = .ok (encodeCW i) := sampleCW_ofCW _ _
  have hdin (x : Tweak) (h : i.operand? = some x) : (encode i idle).sampleDin = .ok x :=
    sampleDin_of_value _ _ (by simp [encode, h, Machine.operandOnDin?_dinOfTweak])
  rw [decode_of_sampleCW _ _ hcw, decodeCW_encodeCW]
  cases i with
  | rst => rfl
  | nop => rfl
  | dbl => rfl
  | ld x => rw [hdin x rfl]; rfl
  | ldd x => rw [hdin x rfl]; rfl

/-- Where the operation has no operand, `din` is not examined (R22). -/
theorem decode_din_irrelevant {p : Pins} {i : Instr} (h : decode p = .ok i) (hi : i.operand? = none)
    (d : DinLevels) : decode { p with din := d } = .ok i := by
  cases hcw : p.sampleCW with
  | error port => simp [decode, hcw] at h
  | ok cw =>
    have hcw' : ({ p with din := d } : Pins).sampleCW = .ok cw := hcw
    rw [decode_of_sampleCW _ _ hcw] at h
    rw [decode_of_sampleCW _ _ hcw']
    cases hop : decodeCW cw
    all_goals simp only [hop] at h ⊢
    case reset | nop | dbl => exact h
    case ld | ldd =>
      cases hd : p.sampleDin with
      | error port => rw [hd] at h; cases h
      | ok x => rw [hd] at h; cases h; cases hi

end Sys2Proof
end

section
/-! PROOFS. What one step can do, once for all, and the runs that issue instructions. -/

namespace Sys2Proof.Machine

/-- The steps that go through, one constructor per act of the host; `Transition.of_step` and
`Transition.step_eq` tie it to the model. -/
inductive Transition (s : State) : State → Prop
  | idle (h : s.host = []) : Transition s s
  | drive (p : Pins) (es : List HostEvent) (h : s.host = .drive p :: es) :
      Transition s { s.hostRest es with pins := p }
  | edge (i : Instr) (es : List HostEvent) (h : s.host = .edge :: es) (hd : decode s.pins = .ok i) :
      Transition s ((s.hostRest es).perform i)
  | look (es : List HostEvent) (h : s.host = .look :: es) : Transition s (s.hostRest es)
  | takeTweak (es : List HostEvent) (h : s.host = .takeTweak :: es) (hv : s.v = true) :
      Transition s (s.hostRest es)
  | powerUp (es : List HostEvent) (h : s.host = .powerUp :: es) :
      Transition s { s.hostRest es with
        t := Config.powerOnTweak s.draws
        v := Config.powerOnValid s.draws
        red := Config.powerOnReduced s.draws
        draws := s.draws + 1 }

/-- An edge whose levels decode performs that operation, and the act of the host is used up (R40, R92). -/
theorem step_edge_of_decode {s : State} {es : List HostEvent} {i : Instr} (h : s.host = .edge :: es)
    (hd : decode s.pins = .ok i) : step s = .next ((s.hostRest es).perform i) := by
  rw [step_edge s es h, clockEdge_of_decode (s.hostRest es) i hd, exec_eq_next]

theorem Transition.of_step {s s' : State} (h : step s = .next s') : Transition s s' := by
  cases hh : s.host with
  | nil =>
    rw [step_idle s hh] at h
    cases h
    exact .idle hh
  | cons e es =>
    cases e with
    | drive p =>
      rw [step_drive s p es hh] at h
      cases h
      exact .drive p es hh
    | edge =>
      cases hd : decode s.pins with
      | error port =>
        rw [step_edge s es hh, clockEdge_of_refused (s.hostRest es) port hd] at h
        cases h
      | ok i =>
        rw [step_edge_of_decode hh hd] at h
        cases h
        exact .edge i es hh hd
    | look =>
      rw [step_look s es hh] at h
      cases h
      exact .look es hh
    | takeTweak =>
      rw [step_takeTweak s es hh] at h
      obtain ⟨rfl, hv⟩ := takeTweak_next _ _ h
      exact .takeTweak es hh hv
    | powerUp =>
      rw [step_powerUp s es hh] at h
      cases h
      exact .powerUp es hh

theorem Transition.step_eq {s s' : State} (h : Transition s s') : step s = .next s' := by
  cases h with
  | idle h => exact step_idle s h
  | drive p es h => exact step_drive s p es h
  | edge i es h hd => exact step_edge_of_decode h hd
  | look es h => exact step_look s es h
  | takeTweak es h hv => rw [step_takeTweak s es h]; exact takeTweak_of_valid _ hv
  | powerUp es h => exact step_powerUp s es h

theorem runsTo_succ_of_step {k : Nat} {s u w : State} (h : step s = .next u) (hk : runsTo k u w) :
    runsTo (k + 1) s w :=
  (run_succ_of_next s k u h).trans hk

/-- One issued instruction takes two steps, and leaves the block as the operation does. -/
theorem runsTo_issue_perform {s : State} {idle : DinLevels} {i : Instr} {es : List HostEvent}
    (h : s.host = issue idle i ++ es) :
    ∃ w, runsTo 2 s w ∧ w.outputs = (s.perform i).outputs ∧ w.host = es := by
  have hout : ({ s.hostRest es with pins := encode i idle } : State).outputs = s.outputs := rfl
  exact ⟨_, runsTo_issue s i idle es h (decode_encode i idle) _ (exec_eq_next i _),
    State.outputs_perform_congr hout i, State.perform_host _ i⟩

/-- Issued instructions run to the outputs that the operations leave one after the other (R37). -/
theorem runsTo_issueAll (idle : DinLevels) (es : List HostEvent) (is : List Instr) :
    ∀ s : State, s.host = issueAll idle is ++ es →
      ∃ u, runsTo (2 * is.length) s u ∧ u.outputs = (is.foldl State.perform s).outputs ∧ u.host = es := by
  induction is with
  | nil => exact fun s h => ⟨s, run_zero s, rfl, h⟩
  | cons i is ih =>
    intro s h
    rw [issueAll, List.flatMap_cons, List.append_assoc] at h
    obtain ⟨w, hrun, hw, hwhost⟩ := runsTo_issue_perform h
    obtain ⟨u, hrun', hu, huhost⟩ := ih w hwhost
    refine ⟨u, ?_, hu.trans (State.outputs_foldl_perform_congr is hw), huhost⟩
    rw [List.length_cons, Nat.mul_succ, Nat.add_comm]
    exact runsTo_add hrun hrun'

/-- What `afterIssuing` says, for any instructions from any state. -/
theorem afterIssuing_foldl_perform (is : List Instr) (s : State) :
    afterIssuing is s (is.foldl State.perform s).outputs := by
  intro idle es
  obtain ⟨u, hrun, hout, hhost⟩ := runsTo_issueAll idle es is { s with host := issueAll idle is ++ es } rfl
  exact ⟨u, hrun, hout.trans (State.outputs_foldl_perform_congr is rfl), hhost⟩

end Sys2Proof.Machine
end

section
/-! PROOFS. The invariant of a block that was reset. -/

namespace Sys2Proof.Machine

theorem State.TweakInv.perform {s : State} (h : s.TweakInv) (i : Instr) : (s.perform i).TweakInv := by
  obtain ⟨hzero, hbit⟩ := h
  cases i with
  | rst => simp [State.TweakInv]
  | nop => exact ⟨hzero, hbit⟩
  | dbl =>
    refine ⟨fun hv => ?_, fun hred => (double_getLsbD_zero s.t).trans hred⟩
    obtain ⟨ht, -⟩ := hzero hv
    simp [ht]
  | ld x => simp [State.TweakInv]
  | ldd x => exact ⟨fun hv => (by cases hv), fun hred => (double_getLsbD_zero x).trans hred⟩

theorem noPowerUp_rest {s : State} {e : HostEvent} {es : List HostEvent} (h : s.host = e :: es)
    (hquiet : noPowerUp s.host = true) : noPowerUp es = true := by
  rw [h, noPowerUp, List.all_cons, Bool.and_eq_true] at hquiet
  exact hquiet.2

/-- Settles O1: the reset values stand in the definition of the reset state. -/
theorem resetStateIsZero : Obligations.ResetStateIsZero := ⟨rfl, rfl, rfl⟩

/-- Settles O2: at reset `T` and `RED` are 0 and the script is empty. -/
theorem resetMeetsTweakInvariant : Obligations.ResetMeetsTweakInvariant :=
  ⟨⟨fun _ => ⟨rfl, rfl⟩, fun h => by cases h⟩, rfl⟩

/-- Settles O36: an edge keeps the invariant by `State.TweakInv.perform`, and no other act touches the block, since
none of the script is a power-up. -/
theorem stepKeepsTweakInvariant : Obligations.StepKeepsTweakInvariant := by
  intro s s' ⟨htweak, hquiet⟩ hstep
  cases Transition.of_step hstep with
  | idle h => exact ⟨htweak, hquiet⟩
  | drive p es h => exact ⟨htweak, noPowerUp_rest h hquiet⟩
  | edge i es h hd =>
    refine ⟨State.TweakInv.perform (s := s.hostRest es) htweak i, ?_⟩
    rw [State.perform_host]
    exact noPowerUp_rest h hquiet
  | look es h => exact ⟨htweak, noPowerUp_rest h hquiet⟩
  | takeTweak es h hv => exact ⟨htweak, noPowerUp_rest h hquiet⟩
  | powerUp es h => simp [h, noPowerUp] at hquiet

end Sys2Proof.Machine
end

section
/-! PROOFS. What the inputs and the acts between edges can do to the block. -/

namespace Sys2Proof.Machine

/-- Settles O10: driving the ports writes the ports alone, and an edge without operand decodes the same. -/
theorem dinIsDontCare : Obligations.DinIsDontCare := by
  refine ⟨fun s es p h => step_drive s p es h, fun s es i d h hd hi => ?_⟩
  have hd' := decode_din_irrelevant hd hi d
  refine ⟨_, _, step_edge_of_decode h hd, step_edge_of_decode h hd', ?_⟩
  have hout : (s.hostRest es).outputs = ({ s with pins := { s.pins with din := d } }.hostRest es).outputs := rfl
  exact (State.outputs_eq_iff _ _).1 (State.outputs_perform_congr hout i)

/-- An act that is no edge, no power-up and no take of an unloaded tweak leaves the outputs as they are (R21, R22, R35). -/
theorem step_between_edges {s : State} {e : HostEvent} {es : List HostEvent} (h : s.host = e :: es)
    (hedge : e ≠ .edge) (hpower : e ≠ .powerUp) (htake : e ≠ .takeTweak ∨ s.v = true) :
    ∃ u, step s = .next u ∧ u.outputs = s.outputs ∧ u.host = es := by
  cases e with
  | drive p => exact ⟨_, step_drive s p es h, rfl, rfl⟩
  | edge => exact absurd rfl hedge
  | look => exact ⟨_, step_look s es h, rfl, rfl⟩
  | takeTweak =>
    have hv : s.v = true := htake.resolve_left (· rfl)
    exact ⟨_, (Transition.takeTweak es h hv).step_eq, rfl, rfl⟩
  | powerUp => exact absurd rfl hpower

/-- Settles O11, by induction on the acts between the edges. -/
theorem outputsHoldBetweenEdges : Obligations.OutputsHoldBetweenEdges := by
  intro s es rest hedge hpower htake hhost
  refine ⟨rfl, ?_⟩
  induction es generalizing s with
  | nil => exact ⟨s, run_zero s, rfl, hhost⟩
  | cons e es ih =>
    rw [List.mem_cons, not_or] at hedge hpower htake
    obtain ⟨hedge_e, hedge_es⟩ := hedge
    obtain ⟨hpower_e, hpower_es⟩ := hpower
    obtain ⟨u, hstep, hout, hrest⟩ := step_between_edges hhost (Ne.symm hedge_e) (Ne.symm hpower_e)
      (htake.imp_left fun h => Ne.symm h.1)
    have hv : u.v = s.v := congrArg Outputs.tv hout
    obtain ⟨w, hrun, hw, hwhost⟩ := ih u hedge_es hpower_es (htake.imp And.right hv.trans) hrest
    exact ⟨w, runsTo_succ_of_step hstep hrun, hw.trans hout, hwhost⟩

/-- Settles O35: a case per act of the host; at an edge the writers are read off the operation. -/
theorem onlyTheWritersChangeTheBlock : Obligations.OnlyTheWritersChangeTheBlock := by
  intro s s' hstep hpower
  cases Transition.of_step hstep with
  | idle h => simp [h]
  | drive p es h => simp [h]
  | edge i es h hd =>
    have hwriter (hne : i ≠ .nop) : s.host.head? = some .edge ∧
        ∃ j, decode s.pins = .ok j ∧ (j = .rst ∨ j = .dbl ∨ j.operand?.isSome = true) :=
      ⟨by simp [h], i, hd, Instr.writer_of_ne_nop hne⟩
    refine ⟨fun ht => hwriter ?_, fun hv => ⟨by simp [h], i, hd, ?_⟩, fun hred => hwriter ?_, ?_, ?_, ?_⟩
    · rintro rfl; exact ht rfl
    · exact State.writer_of_perform_v_ne (s := s.hostRest es) hv
    · rintro rfl; exact hred rfl
    · simp
    · simp
    · simp [h]
  | look es h => simp [h]
  | takeTweak es h hv => simp [h]
  | powerUp es h => simp [h] at hpower

end Sys2Proof.Machine
end

section
/-! PROOFS. What the two status bits record. -/

namespace Sys2Proof.Machine

/-- Some load has no reset after it. -/
def LoadedSinceReset (is : List Instr) : Prop :=
  ∃ before i after, is = before ++ i :: after ∧ i.operand?.isSome = true ∧ Instr.rst ∉ after

theorem not_loadedSinceReset_nil : ¬ LoadedSinceReset [] := by
  simp [LoadedSinceReset]

theorem loadedSinceReset_cons (i : Instr) (is : List Instr) :
    LoadedSinceReset (i :: is) ↔ (i.operand?.isSome = true ∧ Instr.rst ∉ is) ∨ LoadedSinceReset is := by
  constructor
  · rintro ⟨before, j, after, heq, hj, hafter⟩
    cases before with
    | nil => cases heq; exact .inl ⟨hj, hafter⟩
    | cons b before => cases heq; exact .inr ⟨before, j, after, rfl, hj, hafter⟩
  · rintro (⟨hi, his⟩ | ⟨before, j, after, rfl, hj, hafter⟩)
    · exact ⟨[], i, is, rfl, hi, his⟩
    · exact ⟨i :: before, j, after, rfl, hj, hafter⟩

/-- After any operations `V` is 1 exactly when a load came after the last reset, or it was 1 and no reset came (R16). -/
theorem foldl_perform_v_iff (is : List Instr) : ∀ s : State,
    (is.foldl State.perform s).v = true ↔ LoadedSinceReset is ∨ (s.v = true ∧ Instr.rst ∉ is) := by
  induction is with
  | nil => simp [not_loadedSinceReset_nil]
  | cons i is ih =>
    intro s
    rw [List.foldl_cons, ih, State.perform_v_iff, loadedSinceReset_cons, List.mem_cons, not_or, ne_comm]
    tauto

/-- Settles O33: the run by `afterIssuing_foldl_perform`, the meaning of `V` by `foldl_perform_v_iff`. -/
theorem validMeansLoadedSinceReset : Obligations.ValidMeansLoadedSinceReset := by
  refine ⟨fun is s => ⟨_, afterIssuing_foldl_perform is s, foldl_perform_v_iff is s⟩, fun i s b => ?_⟩
  refine ⟨_, _, exec_eq_next i s, exec_eq_next i _, ?_⟩
  cases i <;> exact ⟨rfl, rfl⟩

/-- Settles O34: a doubling differs from the plain shift exactly when the bit shifted out is 1. -/
theorem redTellsTheReduction : Obligations.RedTellsTheReduction := by
  refine ⟨fun s => ⟨_, exec_dbl s, rfl, (double_ne_shift_iff s.t).symm⟩,
    fun s x => ⟨_, exec_ldd x s, rfl, (double_ne_shift_iff x).symm⟩,
    fun s x => ⟨_, exec_ld x s, rfl⟩, fun s => ⟨_, exec_rst s, rfl⟩, fun s => ⟨_, exec_nop s, rfl⟩, fun i s b => ?_⟩
  refine ⟨_, _, exec_eq_next i s, exec_eq_next i _, ?_⟩
  cases i <;> exact ⟨rfl, rfl⟩

end Sys2Proof.Machine
end

section
/-! PROOFS. The 16 bytes of a tweak: their weights in its value, and the way they lie on the ports. -/

namespace Sys2Proof.Machine

/-- The low n bytes of a value weigh 2^(8i) each (R28). -/
theorem toNat_mod_eq_sum_byteOf (x : Tweak) (n : Nat) :
    x.toNat % 2 ^ (8 * n) = ∑ i ∈ Finset.range n, (byteOf x i).toNat * 2 ^ (8 * i) := by
  induction n with
  | zero => simp [Nat.mod_one]
  | succ n ih =>
    have hbyte : (byteOf x n).toNat = x.toNat / 2 ^ (8 * n) % 2 ^ 8 := by
      rw [byteOf, BitVec.extractLsb'_toNat, Nat.shiftRight_eq_div_pow]
    rw [Finset.sum_range_succ, ← ih, hbyte, Nat.mul_succ, pow_add, Nat.mod_mul, Nat.mul_comm (2 ^ (8 * n))]

theorem byteOf_tweakOfBytes (b : TweakBytes) (i : Fin 16) : byteOf (tweakOfBytes b) i = b[i] := by
  rw [← bytesOfTweak_getElem _ _ i.isLt]
  exact congrArg (fun bs : TweakBytes => bs[i]) (bytesOfTweak_tweakOfBytes b)

theorem tweakOfBytes_toNat (b : TweakBytes) :
    (tweakOfBytes b).toNat = ∑ i : Fin 16, b[i].toNat * 2 ^ (8 * i.val) := by
  calc (tweakOfBytes b).toNat
      = (tweakOfBytes b).toNat % 2 ^ (8 * 16) := (Nat.mod_eq_of_lt (tweakOfBytes b).isLt).symm
    _ = ∑ i : Fin 16, (byteOf (tweakOfBytes b) i).toNat * 2 ^ (8 * i.val) := by
      rw [toNat_mod_eq_sum_byteOf, Finset.sum_range]
    _ = ∑ i : Fin 16, b[i].toNat * 2 ^ (8 * i.val) := by simp only [byteOf_tweakOfBytes]

/-- Wiring the byte array to `din` drives the value of the bytes (R28, R30). -/
theorem dinOfBytes_eq_dinOfTweak (b : TweakBytes) : dinOfBytes b = dinOfTweak (tweakOfBytes b) := by
  apply Vector.ext
  intro j hj
  rw [dinOfTweak_getElem _ _ hj, tweakOfBytes_getLsbD _ _ hj, dinOfBytes, Vector.getElem_ofFn]

theorem dinOfBytes_getElem (b : TweakBytes) (i : Fin 16) (j : Fin 8) :
    (dinOfBytes b)[8 * i.val + j.val]'(by omega) = Level.ofBit (b[i].getLsbD j) := by
  have hq : (8 * i.val + j.val) / 8 = i.val := by omega
  have hr : (8 * i.val + j.val) % 8 = j.val := by omega
  simp only [dinOfBytes, Vector.getElem_ofFn, hq, hr, Fin.getElem_fin]

/-- The word 010 with the byte array on `din` is LD of the value of the bytes (R30, R71). -/
theorem decode_ld_dinOfBytes (b : TweakBytes) :
    decode (Pins.ofCW 0b010#3 (dinOfBytes b)) = .ok (.ld (tweakOfBytes b)) := by
  rw [dinOfBytes_eq_dinOfTweak]
  exact decode_encode (.ld (tweakOfBytes b)) (dinOfBytes b)

/-- Settles O31: the sum by `tweakOfBytes_toNat`, the bytes by `byteOf_tweakOfBytes`. -/
theorem tweakIsLittleEndian : Obligations.TweakIsLittleEndian :=
  ⟨tweakOfBytes_toNat, byteOf_tweakOfBytes, fun b j => tweakOfBytes_getLsbD b j j.isLt, tweakOfBytes_bytesOfTweak⟩

/-- Settles O32: the edge loads the value of the bytes, whose byte i is the host's. -/
theorem portsCarryBytesUnswapped : Obligations.PortsCarryBytesUnswapped := by
  refine ⟨dinOfBytes_getElem, fun b s es h hpins => ?_⟩
  have hd : decode s.pins = .ok (.ld (tweakOfBytes b)) := by rw [hpins, decode_ld_dinOfBytes]
  exact ⟨_, step_edge_of_decode h hd, byteOf_tweakOfBytes b⟩

end Sys2Proof.Machine
end

section
/-! PROOFS. Reads and samples leave everything as it was, and operations act one after the other. -/

namespace Sys2Proof.Machine

/-- Reads use up their own acts and nothing else (R35). -/
theorem runsTo_replicate_look (es : List HostEvent) (n : Nat) :
    ∀ s : State, s.host = List.replicate n .look ++ es → runsTo n s (s.hostRest es) := by
  induction n with
  | zero =>
    rintro s rfl
    exact run_zero s
  | succ n ih =>
    intro s h
    exact runsTo_succ_of_step (step_look s _ h) (ih (s.hostRest (List.replicate n .look ++ es)) rfl)

/-- An edge that goes through decoded to an operation, and left what that operation leaves (R40, R46). -/
theorem step_edge_next {s s' : State} {es : List HostEvent} (h : s.host = .edge :: es) (hstep : step s = .next s') :
    ∃ i, decode s.pins = .ok i ∧ s' = (s.hostRest es).perform i := by
  cases hd : decode s.pins with
  | error port =>
    rw [step_edge s es h, clockEdge_of_refused (s.hostRest es) port hd] at hstep
    cases hstep
  | ok i =>
    rw [step_edge_of_decode h hd] at hstep
    cases hstep
    exact ⟨i, rfl, rfl⟩

/-- Settles O12: reads by `runsTo_replicate_look`; an edge performs an operation, which writes the block alone. -/
theorem readsAndSamplesHaveNoSideEffect : Obligations.ReadsAndSamplesHaveNoSideEffect := by
  refine ⟨fun s n es h => runsTo_replicate_look es n s h, fun s s' es h hstep => ?_⟩
  obtain ⟨i, -, rfl⟩ := step_edge_next h hstep
  exact ⟨State.perform_pins _ i, State.perform_host _ i, State.perform_draws _ i⟩

/-- Every sequence of operations completes, each on the state that the one before left (R37, R73). -/
theorem execAll_eq_next (is : List Instr) : ∀ s : State, execAll is s = .next (is.foldl State.perform s) := by
  induction is with
  | nil => exact fun _ => rfl
  | cons i is ih =>
    intro s
    simp only [execAll, exec_eq_next, ih, List.foldl_cons]

/-- Settles O37: `execAll` ends in the state of `execAll_eq_next`, whose outputs are those of the issued run. -/
theorem commandsTakeEffectInEdgeOrder : Obligations.CommandsTakeEffectInEdgeOrder :=
  fun is s => ⟨_, execAll_eq_next is s, afterIssuing_foldl_perform is s⟩

end Sys2Proof.Machine
end

section
/-! PROOFS. The decoder read backwards: which levels decode to an instruction, and which are refused. -/

namespace Sys2Proof

theorem Level.bit?_eq_some_iff (l : Level) (b : Bool) : l.bit? = some b ↔ l = Level.ofBit b := by
  cases l <;> cases b <;> decide

theorem Level.bit?_eq_none_iff (l : Level) : l.bit? = none ↔ l.clean = false := by
  cases l <;> decide

theorem Level.clean_iff (l : Level) : l.clean = true ↔ ∃ b, l = Level.ofBit b := by
  simp only [← Level.bit?_eq_some_iff, Level.clean, Option.isSome_iff_exists]

theorem Level.ofBit_decide_high {l : Level} (h : l.clean = true) : Level.ofBit (decide (l = .high)) = l := by
  obtain ⟨b, rfl⟩ := (Level.clean_iff l).1 h
  rw [Level.ofBit_eq_high]

theorem ctrlWord_getLsbD (r c1 c0 : Bool) :
    (ctrlWord r c1 c0).getLsbD 2 = r ∧ (ctrlWord r c1 c0).getLsbD 1 = c1 ∧ (ctrlWord r c1 c0).getLsbD 0 = c0 := by
  revert r c1 c0
  decide

theorem Pins.ofCW_ctrlWord (r c1 c0 : Bool) (d : DinLevels) :
    Pins.ofCW (ctrlWord r c1 c0) d = ⟨Level.ofBit r, Level.ofBit c1, Level.ofBit c0, d⟩ := by
  obtain ⟨hr, hc1, hc0⟩ := ctrlWord_getLsbD r c1 c0
  rw [Pins.ofCW, hr, hc1, hc0]

/-- The word that is sampled is the word that drives the three bits. -/
theorem Pins.sampleCW_eq_ok_iff (p : Pins) (cw : CtrlWord) : p.sampleCW = .ok cw ↔ p = Pins.ofCW cw p.din := by
  constructor
  · intro h
    unfold Pins.sampleCW at h
    split at h
    case h_1 | h_2 | h_3 => cases h
    case h_4 r c1 c0 hr hc1 hc0 =>
      cases h
      rw [Level.bit?_eq_some_iff] at hr hc1 hc0
      rw [Pins.ofCW_ctrlWord, ← hr, ← hc1, ← hc0]
  · intro h
    rw [h, sampleCW_ofCW]

/-- The port that is named is the first of `rst` and `cmd` with an unclean bit (R46, log 5). -/
theorem Pins.sampleCW_eq_error_iff (p : Pins) (port : InputPort) : p.sampleCW = .error port ↔
    (port = .rst ∧ p.rst.clean = false) ∨
      (port = .cmd ∧ p.rst.clean = true ∧ (p.cmd1.clean = false ∨ p.cmd0.clean = false)) := by
  unfold Pins.sampleCW
  split
  case h_1 hr => simp [Level.clean, hr, eq_comm (b := port)]
  case h_2 hr hc1 => simp [Level.clean, hr, hc1, eq_comm (b := port)]
  case h_3 hr hc1 hc0 => simp [Level.clean, hr, hc1, hc0, eq_comm (b := port)]
  case h_4 hr hc1 hc0 => simp [Level.clean, hr, hc1, hc0]

theorem Pins.sampleDin_eq_error_iff (p : Pins) (port : InputPort) :
    p.sampleDin = .error port ↔ port = .din ∧ ∃ l ∈ p.din.toList, l.clean = false := by
  have hsome : p.din.toList.all Level.clean = false ↔ ∃ l ∈ p.din.toList, l.clean = false := by
    simp only [List.all_eq_false, Bool.not_eq_true]
  rw [← hsome]
  cases hall : p.din.toList.all Level.clean <;> simp [Pins.sampleDin, Machine.operandOnDin?, hall, eq_comm]

/-- Clean levels on `din` are the levels that their own operand drives (R43, R46). -/
theorem Machine.operandOnDin?_eq_some_iff (d : DinLevels) (x : Tweak) :
    Machine.operandOnDin? d = some x ↔ d = Machine.dinOfTweak x := by
  constructor
  · intro h
    rw [Machine.operandOnDin?, Option.ite_none_right_eq_some, List.all_eq_true] at h
    obtain ⟨hclean, heq⟩ := h
    rw [Option.some.injEq] at heq
    apply Vector.ext
    intro j hj
    have hbit : x.getLsbD j = decide (d[j] = .high) := by
      rw [← heq, Machine.tweakOfBytes_getLsbD _ _ hj, Vector.getElem_ofFn, Machine.byteOnDin,
        BitVec.getLsbD_ofFnLE, dif_pos (Nat.mod_lt _ (by decide))]
      simp only [Nat.div_add_mod]
    rw [Machine.dinOfTweak_getElem _ _ hj, hbit, Level.ofBit_decide_high]
    exact hclean _ (Vector.mem_toList_iff.2 (Vector.getElem_mem hj))
  · rintro rfl
    exact Machine.operandOnDin?_dinOfTweak x

theorem Pins.sampleDin_eq_ok_iff (p : Pins) (x : Tweak) :
    p.sampleDin = .ok x ↔ p.din = Machine.dinOfTweak x := by
  rw [← Machine.operandOnDin?_eq_some_iff]
  cases h : Machine.operandOnDin? p.din <;> simp [Pins.sampleDin, h]

end Sys2Proof
end

section
/-! PROOFS. The decode table read both ways (R40, R45), and the edges that are refused (R46). -/

namespace Sys2Proof

open Laws.ControlWord

theorem decodeCW_eq_reset_iff (cw : CtrlWord) : decodeCW cw = .reset ↔ cw.getLsbD 2 = true := by
  revert cw
  decide

/-- Each operation but RESET has one control word. -/
theorem eq_encodeCW_of_decodeCW {cw : CtrlWord} {i : Instr} (h : decodeCW cw = operationOf i) (hi : i ≠ .rst) :
    cw = encodeCW i := by
  have hinj : ∀ a b : CtrlWord, decodeCW a = decodeCW b → decodeCW a ≠ .reset → a = b := by decide
  refine hinj _ _ (h.trans (decodeCW_encodeCW i).symm) ?_
  rw [h]
  cases i with
  | rst => exact absurd rfl hi
  | nop | dbl | ld | ldd => simp [operationOf]

/-- The two loads are the operations that sample `din` (R22, R41). -/
theorem decodeCW_samples_iff (cw : CtrlWord) (d : DinLevels) :
    (decodeCW cw = .ld ∨ decodeCW cw = .ldd) ↔ (Pins.ofCW cw d).rst = .low ∧ (Pins.ofCW cw d).cmd1 = .high := by
  have htable : ∀ cw : CtrlWord, (decodeCW cw = .ld ∨ decodeCW cw = .ldd) ↔
      Level.ofBit (cw.getLsbD 2) = .low ∧ Level.ofBit (cw.getLsbD 1) = .high := by decide
  exact htable cw

/-- The levels that decode to an instruction: a control word of its operation, and on `din` its operand if it
has one. -/
theorem decode_eq_ok_iff (p : Pins) (i : Instr) : decode p = .ok i ↔
    ∃ cw, p = Pins.ofCW cw p.din ∧ decodeCW cw = operationOf i ∧
      ∀ x, i.operand? = some x → p.din = Machine.dinOfTweak x := by
  constructor
  · intro h
    cases hcw : p.sampleCW with
    | error port => simp [decode, hcw] at h
    | ok cw =>
      rw [decode_of_sampleCW p cw hcw] at h
      refine ⟨cw, (Pins.sampleCW_eq_ok_iff p cw).1 hcw, ?_⟩
      cases hop : decodeCW cw
      all_goals simp only [hop] at h
      case reset | nop | dbl => cases h; simp [operationOf, Instr.operand?]
      case ld | ldd =>
        cases hd : p.sampleDin with
        | error port => rw [hd] at h; cases h
        | ok y =>
          rw [hd] at h
          cases h
          refine ⟨rfl, fun x hx => ?_⟩
          cases hx
          exact (Pins.sampleDin_eq_ok_iff p _).1 hd
  · rintro ⟨cw, hp, hop, hdin⟩
    rw [decode_of_sampleCW p cw ((Pins.sampleCW_eq_ok_iff p cw).2 hp), hop]
    cases i with
    | rst | nop | dbl => rfl
    | ld x | ldd x => rw [(Pins.sampleDin_eq_ok_iff p x).2 (hdin x rfl)]; rfl

/-- A refused edge names the first port with a bit that is sampled and not clean (R46, log 5). -/
theorem decode_eq_error_iff (p : Pins) (port : InputPort) : decode p = .error port ↔
    (port = .rst ∧ p.rst.clean = false) ∨
    (port = .cmd ∧ p.rst.clean = true ∧ (p.cmd1.clean = false ∨ p.cmd0.clean = false)) ∨
    (port = .din ∧ p.rst = .low ∧ p.cmd1 = .high ∧ p.cmd0.clean = true ∧ ∃ l ∈ p.din.toList, l.clean = false) := by
  have hsplit : decode p = .error port ↔ p.sampleCW = .error port ∨
      (p.rst = .low ∧ p.cmd1 = .high ∧ p.cmd0.clean = true ∧ p.sampleDin = .error port) := by
    cases hcw : p.sampleCW with
    | error port' =>
      have hnot : ¬ (p.rst = .low ∧ p.cmd1 = .high ∧ p.cmd0.clean = true) := by
        rintro ⟨hr, hc1, hc0⟩
        rcases (Pins.sampleCW_eq_error_iff p port').1 hcw with ⟨-, h⟩ | ⟨-, -, h | h⟩
        · rw [hr] at h; cases h
        · rw [hc1] at h; cases h
        · rw [hc0] at h; cases h
      have hdec : decode p = .error port ↔ (Except.error port' : Except InputPort CtrlWord) = .error port := by
        simp [decode, hcw]
      rw [hdec]
      exact ⟨.inl, fun h => h.resolve_right fun ⟨hr, hc1, hc0, _⟩ => hnot ⟨hr, hc1, hc0⟩⟩
    | ok cw =>
      have hp := (Pins.sampleCW_eq_ok_iff p cw).1 hcw
      have hsamples := decodeCW_samples_iff cw p.din
      have hc0 : p.cmd0.clean = true := by rw [hp]; exact Level.clean_ofBit _
      rw [← hp] at hsamples
      rw [decode_of_sampleCW p cw hcw, hc0, ← and_assoc, ← hsamples]
      cases hop : decodeCW cw with
      | reset | nop | dbl => simp
      | ld | ldd => cases p.sampleDin <;> simp [Except.map]
  rw [hsplit, Pins.sampleCW_eq_error_iff, Pins.sampleDin_eq_error_iff, or_assoc]
  simp only [and_left_comm (b := port = .din)]

/-- The levels that an edge refuses, whichever port is named (R46). -/
theorem decode_error_iff_unclean (p : Pins) : (∃ port, decode p = .error port) ↔
    (p.rst.clean = false ∨ p.cmd1.clean = false ∨ p.cmd0.clean = false ∨
      (p.rst = .low ∧ p.cmd1 = .high ∧ ∃ l ∈ p.din.toList, l.clean = false)) := by
  simp only [decode_eq_error_iff]
  constructor
  · rintro ⟨port, ⟨-, hr⟩ | ⟨-, -, hc⟩ | ⟨-, hr, hc1, -, hdin⟩⟩
    · exact .inl hr
    · exact .inr (hc.imp_right .inl)
    · exact .inr (.inr (.inr ⟨hr, hc1, hdin⟩))
  · intro h
    by_cases hr : p.rst.clean = false
    · exact ⟨.rst, .inl ⟨rfl, hr⟩⟩
    by_cases hc : p.cmd1.clean = false ∨ p.cmd0.clean = false
    · exact ⟨.cmd, .inr (.inl ⟨rfl, Bool.eq_true_of_not_eq_false hr, hc⟩)⟩
    obtain ⟨hlow, hhigh, hdin⟩ := (or_assoc.2 (h.resolve_left hr)).resolve_left hc
    have hc0 := Bool.eq_true_of_not_eq_false fun h0 => hc (.inr h0)
    exact ⟨.din, .inr (.inr ⟨rfl, hlow, hhigh, hc0, hdin⟩)⟩

theorem Pins.wellFormed_eq_false_iff (p : Pins) : p.wellFormed = false ↔ ∃ port, decode p = .error port := by
  rw [decode_error_iff_unclean]
  simp only [Pins.wellFormed, Pins.samplesDin, Bool.and_eq_false_iff, Bool.or_eq_false_iff, Bool.not_eq_false',
    Bool.and_eq_true, beq_iff_eq, List.all_eq_false, Bool.not_eq_true, or_assoc, and_assoc]

/-- Settles O9: the two directions are `decode_encode` and `decode_eq_ok_iff`. -/
theorem decodeAndEncodeAgree : Obligations.DecodeAndEncodeAgree := by
  refine ⟨fun i idle _ => decode_encode i idle, fun p i h => ?_⟩
  obtain ⟨cw, hp, hop, hdin⟩ := (decode_eq_ok_iff p i).1 h
  by_cases hi : i = .rst
  · subst hi
    have hbit := (decodeCW_eq_reset_iff cw).1 hop
    refine .inr ⟨rfl, ?_, ?_, ?_⟩ <;> rw [hp]
    · exact congrArg Level.ofBit hbit
    · exact Level.clean_ofBit _
    · exact Level.clean_ofBit _
  · left
    have hlevels : (i.operand?.map Machine.dinOfTweak).getD p.din = p.din := by
      cases hx : i.operand? with
      | none => rfl
      | some x => exact (hdin x hx).symm
    rw [encode, hlevels, ← eq_encodeCW_of_decodeCW hop hi]
    exact hp

end Sys2Proof
end

section
/-! PROOFS. What an edge does with each control word, and the reset that wins. -/

namespace Sys2Proof.Machine

open Laws.ControlWord

/-- Settles O3: an edge samples, decodes and executes. -/
theorem stepRunsTheSampledOperation : Obligations.StepRunsTheSampledOperation :=
  fun s es h => ⟨fun i hd => (step_edge s es h).trans (clockEdge_of_decode (s.hostRest es) i hd),
    fun port hd => (step_edge s es h).trans (clockEdge_of_refused (s.hostRest es) port hd)⟩

/-- Settles O4: the script has an edge first, and the ports carry the word. -/
theorem tableWordRunsNext : Obligations.TableWordRunsNext := by
  intro s nbits w i h
  have hd : decode (tableWordPins nbits w) = .ok i := by
    cases hd : decode (tableWordPins nbits w) with
    | error port => rw [decodeTableWord, hd] at h; cases h
    | ok j => rw [decodeTableWord, hd] at h; cases h; rfl
  exact (stepRunsTheSampledOperation (s.withFetchWord nbits w) s.host rfl).1 i hd

/-- The table of R40, by the bits of the word (R41, R42). -/
theorem decodeCW_ctrlWord (r c1 c0 : Bool) : decodeCW (ctrlWord r c1 c0) =
    if r then .reset else if c1 then (if c0 then .ldd else .ld) else (if c0 then .dbl else .nop) := by
  revert r c1 c0
  decide

/-- Clean levels decode to the operation of their row, with the value on `din` for the two loads (R40, R43). -/
theorem decode_of_bits (r c1 c0 : Bool) (x : Tweak) :
    decode ⟨Level.ofBit r, Level.ofBit c1, Level.ofBit c0, dinOfTweak x⟩ = .ok
      (if r then .rst else if c1 then (if c0 then .ldd x else .ld x) else (if c0 then .dbl else .nop)) := by
  rw [decode_eq_ok_iff, ← Pins.ofCW_ctrlWord]
  refine ⟨ctrlWord r c1 c0, rfl, ?_⟩
  rw [decodeCW_ctrlWord]
  split_ifs <;> exact ⟨rfl, by simp [Instr.operand?]⟩

/-- A table word below 8 drives its three bits and an operand of zeros (R41, log 8). -/
theorem decodeTableWord_of_lt {nbits w : Nat} (h : w % 2 ^ nbits < 8) (r c1 c0 : Bool)
    (hw : BitVec.ofNat 3 (w % 2 ^ nbits) = ctrlWord r c1 c0) : decodeTableWord nbits w = some
      (if r then .rst else if c1 then (if c0 then .ldd 0 else .ld 0) else (if c0 then .dbl else .nop)) := by
  rw [decodeTableWord, tableWordPins, if_pos h, hw, Pins.ofCW_ctrlWord, decode_of_bits]
  rfl

/-- Settles O5: the six words by their bits. -/
theorem specWordsDecode : Obligations.SpecWordsDecode :=
  ⟨decodeTableWord_of_lt (by decide) true false false (by decide),
    decodeTableWord_of_lt (by decide) true true true (by decide),
    decodeTableWord_of_lt (by decide) false false false (by decide),
    decodeTableWord_of_lt (by decide) false false true (by decide),
    decodeTableWord_of_lt (by decide) false true false (by decide),
    decodeTableWord_of_lt (by decide) false true true (by decide)⟩

/-- Settles O6: an edge with these levels runs what `decode_of_bits` says. -/
theorem controlWordSelectsOperation : Obligations.ControlWordSelectsOperation := by
  intro s es r c1 c0 x h hpins
  refine (stepRunsTheSampledOperation s es h).1 _ ?_
  rw [hpins, decode_of_bits]

/-- Settles O7: the rows by evaluation; every operation completes. -/
theorem everyControlWordIsDefined : Obligations.EveryControlWordIsDefined := by
  refine ⟨by decide, fun s es cw x h hpins => ?_⟩
  exact ⟨_, (controlWordSelectsOperation s es _ _ _ x h hpins).trans (exec_eq_next _ _)⟩

/-- Settles O14: clean levels with `rst` = 1 decode to RESET. -/
theorem resetWinsOverCommand : Obligations.ResetWinsOverCommand := by
  intro s es h hr hc1 hc0
  obtain ⟨b1, hb1⟩ := (Level.clean_iff _).1 hc1
  obtain ⟨b0, hb0⟩ := (Level.clean_iff _).1 hc0
  have hpins : s.pins = Pins.ofCW (ctrlWord true b1 b0) s.pins.din := by
    rw [Pins.ofCW_ctrlWord, ← hb1, ← hb0]
    exact congrArg (fun r => ({ s.pins with rst := r } : Pins)) hr
  have hop : decodeCW (ctrlWord true b1 b0) = .reset :=
    (decodeCW_eq_reset_iff _).2 (ctrlWord_getLsbD true b1 b0).1
  exact step_edge_of_decode h ((decode_eq_ok_iff s.pins .rst).2 ⟨_, hpins, hop, fun x hx => by cases hx⟩)

end Sys2Proof.Machine
end

section
/-! PROOFS. The stops of a run: which acts stop it, and that a stop stays (R46, R85, R95). -/

namespace Sys2Proof.Machine

/-- An outcome that ends a run. -/
def IsStop (o : Host.Outcome State Fault Refusal) : Prop := ∀ s, o ≠ .next s

theorem isStop_fault (r : Fault) : IsStop (.fault r) := fun _ h => by cases h

theorem isStop_refused (r : Refusal) : IsStop (.refused r) := fun _ h => by cases h

/-- The steps that stop, one constructor per cause; `Stop.of_step` and `Stop.step_eq` tie it to the model. -/
inductive Stop (s : State) : Host.Outcome State Fault Refusal → Prop
  | fault (h : s.host.head? = some .takeTweak) (hv : s.v = false) : Stop s (.fault .tweakNotLoaded)
  | refused (port : InputPort) (h : s.host.head? = some .edge) (hd : decode s.pins = .error port) :
      Stop s (.refused (.notBinary port))

theorem Stop.of_step {s : State} {o : Host.Outcome State Fault Refusal} (ho : IsStop o) (h : step s = o) :
    Stop s o := by
  subst h
  cases hh : s.host with
  | nil => exact absurd (step_idle s hh) (ho s)
  | cons e es =>
    have hhead : s.host.head? = some e := by rw [hh, List.head?_cons]
    cases e with
    | drive p => exact absurd (step_drive s p es hh) (ho _)
    | edge =>
      cases hd : decode s.pins with
      | error port =>
        rw [step_edge s es hh, clockEdge_of_refused (s.hostRest es) port hd]
        exact .refused port hhead hd
      | ok i => exact absurd (step_edge_of_decode hh hd) (ho _)
    | look => exact absurd (step_look s es hh) (ho _)
    | takeTweak =>
      cases hv : s.v with
      | false =>
        rw [step_takeTweak s es hh, takeTweak_of_not_valid (s.hostRest es) hv]
        exact .fault hhead hv
      | true => exact absurd (Transition.takeTweak es hh hv).step_eq (ho _)
    | powerUp => exact absurd (Transition.powerUp es hh).step_eq (ho _)

theorem Stop.step_eq {s : State} {o : Host.Outcome State Fault Refusal} (h : Stop s o) : step s = o := by
  cases h with
  | fault h hv =>
    obtain ⟨es, hh⟩ := List.head?_eq_some_iff.1 h
    rw [step_takeTweak s es hh, takeTweak_of_not_valid (s.hostRest es) hv]
  | refused port h hd =>
    obtain ⟨es, hh⟩ := List.head?_eq_some_iff.1 h
    rw [step_edge s es hh, clockEdge_of_refused (s.hostRest es) port hd]

/-- A fault comes from taking a tweak that was not loaded (R95). -/
theorem step_fault_iff (s : State) (r : Fault) : step s = .fault r ↔
    r = .tweakNotLoaded ∧ s.host.head? = some .takeTweak ∧ s.tv = false := by
  constructor
  · intro h
    cases Stop.of_step (isStop_fault r) h with
    | fault hhead hv => exact ⟨rfl, hhead, hv⟩
  · rintro ⟨rfl, hhead, hv⟩
    exact (Stop.fault hhead hv).step_eq

/-- A refusal comes from an edge whose levels decode to nothing (R46). -/
theorem step_refused_iff (s : State) (r : Refusal) : step s = .refused r ↔
    s.host.head? = some .edge ∧ ∃ port, r = .notBinary port ∧ decode s.pins = .error port := by
  constructor
  · intro h
    cases Stop.of_step (isStop_refused r) h with
    | refused port hhead hd => exact ⟨hhead, port, rfl, hd⟩
  · rintro ⟨hhead, port, rfl, hd⟩
    exact (Stop.refused port hhead hd).step_eq

theorem step_refused_iff_unclean (s : State) : (∃ r, step s = .refused r) ↔
    s.host.head? = some .edge ∧ s.pins.wellFormed = false := by
  simp only [step_refused_iff, Pins.wellFormed_eq_false_iff]
  exact ⟨fun ⟨_, hedge, port, _, hd⟩ => ⟨hedge, port, hd⟩, fun ⟨hedge, port, hd⟩ => ⟨_, hedge, port, rfl, hd⟩⟩

/-- A run whose next act stops it ends with that stop, however long it is. -/
theorem run_succ_of_stop {s : State} {o : Host.Outcome State Fault Refusal} (ho : IsStop o) (h : step s = o)
    (k : Nat) : Sys2Proof.core.run (k + 1) s = o := by
  have h' : Sys2Proof.core.step s = o := h
  cases o with
  | next u => exact absurd rfl (ho u)
  | fault r | refused r => simp only [Host.Core.run, h']; rfl

/-- A run that stopped went through to a state whose next act stops it. -/
theorem exists_step_of_run_stop {o : Host.Outcome State Fault Refusal} (ho : IsStop o) (j : Nat) :
    ∀ s : State, Sys2Proof.core.run j s = o → ∃ i u, i < j ∧ runsTo i s u ∧ step u = o := by
  induction j with
  | zero => exact fun s h => absurd h.symm (ho s)
  | succ j ih =>
    intro s h
    cases hs : step s with
    | next w =>
      rw [run_succ_of_next s j w hs] at h
      obtain ⟨i, u, hi, hrun, hu⟩ := ih w h
      exact ⟨i + 1, u, Nat.succ_lt_succ hi, runsTo_succ_of_step hs hrun, hu⟩
    | fault r =>
      rw [run_succ_of_stop (isStop_fault r) hs] at h
      exact ⟨0, s, Nat.succ_pos j, run_zero s, hs.trans h⟩
    | refused r =>
      rw [run_succ_of_stop (isStop_refused r) hs] at h
      exact ⟨0, s, Nat.succ_pos j, run_zero s, hs.trans h⟩

/-- A stop is never cleared: every longer run ends with it. -/
theorem run_stop_persists {o : Host.Outcome State Fault Refusal} (ho : IsStop o) {j : Nat} {s : State}
    (h : Sys2Proof.core.run j s = o) (k : Nat) : Sys2Proof.core.run (j + k) s = o := by
  obtain ⟨i, u, hi, hrun, hu⟩ := exists_step_of_run_stop ho j s h
  obtain ⟨m, hm⟩ : ∃ m, j + k = i + (m + 1) := ⟨j + k - i - 1, by omega⟩
  rw [hm, run_add i (m + 1) s u hrun, run_succ_of_stop ho hu]

/-- Settles O8: the levels by `decode_error_iff_unclean`, the rest of the run by `run_succ_of_stop`. -/
theorem nonBinaryInputIsRefused : Obligations.NonBinaryInputIsRefused := by
  intro s es h
  refine ⟨?_, fun r hr => run_succ_of_stop (isStop_refused r) hr⟩
  rw [← decode_error_iff_unclean]
  simp [step_refused_iff, h]

/-- Settles O43: the acts that stop by `step_fault_iff` and `step_refused_iff`, the runs by `exists_step_of_run_stop`
and `run_stop_persists`. -/
theorem stopsAreExactlyTheTwo : Obligations.StopsAreExactlyTheTwo := by
  refine ⟨step_fault_iff, fun s r => ?_, step_refused_iff_unclean, fun s j r h => ?_, fun s j r h => ?_⟩
  · simp only [step_refused_iff, decode_eq_error_iff]
    simp only [and_or_left, exists_or, and_left_comm (b := _ = (_ : InputPort)), exists_eq_left]
  · obtain ⟨i, u, hi, hrun, hu⟩ := exists_step_of_run_stop (isStop_fault r) j s h
    obtain ⟨-, htake, hv⟩ := (step_fault_iff u r).1 hu
    exact ⟨⟨i, u, hi, hrun, htake, hv⟩, run_stop_persists (isStop_fault r) h⟩
  · obtain ⟨i, u, hi, hrun, hu⟩ := exists_step_of_run_stop (isStop_refused r) j s h
    obtain ⟨hedge, hpins⟩ := (step_refused_iff_unclean u).1 ⟨r, hu⟩
    exact ⟨⟨i, u, hi, hrun, hedge, hpins⟩, run_stop_persists (isStop_refused r) h⟩

end Sys2Proof.Machine
end

section
/-! PROOFS. Repeats, tweak sequences and listings: the states that follow one another. -/

namespace Sys2Proof.Machine

theorem foldl_perform_replicate_nop (k : Nat) (s : State) : (List.replicate k Instr.nop).foldl State.perform s = s := by
  induction k with
  | zero => rfl
  | succ k ih => rw [List.replicate_succ, List.foldl_cons, State.perform_nop, ih]

/-- k DBL double the tweak k times and leave `V` (R66, R70). -/
theorem foldl_perform_replicate_dbl (k : Nat) : ∀ s : State,
    ((List.replicate k Instr.dbl).foldl State.perform s).t = double^[k] s.t ∧
      ((List.replicate k Instr.dbl).foldl State.perform s).v = s.v := by
  induction k with
  | zero => exact fun s => ⟨rfl, rfl⟩
  | succ k ih => exact fun s => ih (s.perform .dbl)

/-- Settles O50: `afterIssuing_foldl_perform` with the states after the repeats. -/
theorem repeatsAreOneEdgeEach : Obligations.RepeatsAreOneEdgeEach := by
  intro k s hk
  have hnop := afterIssuing_foldl_perform (List.replicate k .nop) s
  rw [foldl_perform_replicate_nop] at hnop
  obtain ⟨ht, hv⟩ := foldl_perform_replicate_dbl k s
  exact ⟨by simp [expandStmt, AsmStmt.wellFormed, hk], by simp [expandStmt, AsmStmt.wellFormed, hk], hnop,
    _, afterIssuing_foldl_perform _ s, ht, hv⟩

/-- A value has a meaning only when it is well formed (R49). -/
theorem wellFormed_of_asmValue? {v : AsmValue} {x : Tweak} (h : asmValue? v = some x) : v.wellFormed = true := by
  unfold asmValue? at h
  split at h
  next hv => exact hv
  next => cases h

theorem expandStmt_twk {v : AsmValue} {x : Tweak} {n : Nat} (h : asmValue? v = some x) (hn : 1 ≤ n) :
    expandStmt (.twk v n) = some (tweakSequence x n) := by
  simp [expandStmt, AsmStmt.wellFormed, wellFormed_of_asmValue? h, hn, h]

theorem tweakSequence_length {x : Tweak} {n : Nat} (hn : 1 ≤ n) : (tweakSequence x n).length = n := by
  rw [tweakSequence, List.length_cons, List.length_replicate, Nat.sub_add_cancel hn]

/-- The first edges of a longer sequence are the edges of a shorter one (R51). -/
theorem take_tweakSequence {x : Tweak} {n j : Nat} (hj : j < n) :
    (tweakSequence x n).take (j + 1) = .ld x :: List.replicate j .dbl := by
  rw [tweakSequence, List.take_succ_cons, List.take_replicate, Nat.min_eq_left (by omega)]

/-- Settles O39: tweak[j] by `foldl_perform_replicate_dbl` after the load; it stays by `step_between_edges`. -/
theorem twkGeneratesTheTweaks : Obligations.TwkGeneratesTheTweaks := by
  intro v x n hx hn
  refine ⟨_, expandStmt_twk hx hn, rfl, tweakSequence_length hn, fun s j hj => ?_⟩
  rw [take_tweakSequence hj]
  obtain ⟨ht, hv⟩ := foldl_perform_replicate_dbl j (s.perform (.ld x))
  refine ⟨_, afterIssuing_foldl_perform _ s, ht, hv, fun u p es hu hhost => ?_⟩
  have huv : u.v = true := (congrArg Outputs.tv hu).trans hv
  have hstays (e : HostEvent) (h : u.host = e :: es) (hedge : e ≠ .edge) (hpower : e ≠ .powerUp) :
      ∃ w, step u = .next w ∧ w.outputs = u.outputs := by
    obtain ⟨w, hw, hout, -⟩ := step_between_edges h hedge hpower (.inr huv)
    exact ⟨w, hw, hout⟩
  rw [← hu]
  rcases hhost with h | h | h <;> exact hstays _ h nofun nofun

/-- The listing's row for an instruction at edge e that leaves the state u (R52). -/
def rowAfter (e : Nat) (i : Instr) (u : State) : ListingRow :=
  { edge := e, stmt := i, cw := encodeCW i, din := i.operand?, t := u.t, v := u.v, red := u.red }

theorem listingFrom_cons (e : Nat) (i : Instr) (is : List Instr) (s : State) :
    listingFrom e (i :: is) s = rowAfter e i (s.perform i) :: listingFrom (e + 1) is (s.perform i) := by
  simp only [listingFrom, exec_eq_next, rowAfter]

theorem listingFrom_length (is : List Instr) : ∀ (e : Nat) (s : State), (listingFrom e is s).length = is.length := by
  induction is with
  | nil => exact fun _ _ => rfl
  | cons i is ih => exact fun e s => by rw [listingFrom_cons, List.length_cons, ih, List.length_cons]

/-- Row k shows the state that the instructions up to k leave. -/
theorem listingFrom_getElem? (is : List Instr) : ∀ (e k : Nat) (i : Instr) (s : State), is[k]? = some i →
    (listingFrom e is s)[k]? = some (rowAfter (e + k) i ((is.take (k + 1)).foldl State.perform s)) := by
  induction is with
  | nil => intro e k i s h; cases h
  | cons j is ih =>
    intro e k i s h
    rw [listingFrom_cons]
    cases k with
    | zero => cases h; rfl
    | succ k =>
      rw [List.getElem?_cons_succ] at h ⊢
      rw [ih (e + 1) k i _ h, Nat.add_assoc, Nat.add_comm 1 k, List.take_succ_cons, List.foldl_cons]

/-- Settles O51: the rows by `listingFrom_getElem?`, their states by `afterIssuing_foldl_perform`. -/
theorem listingShowsEachEdge : Obligations.ListingShowsEachEdge := by
  refine fun is s => ⟨listingFrom_length is 1 s, fun k i h => ?_⟩
  exact ⟨_, listingFrom_getElem? is 1 k i s h, Nat.add_comm 1 k, rfl, rfl, rfl, afterIssuing_foldl_perform _ s⟩

end Sys2Proof.Machine
end

section
/-! PROOFS. The numbers that digits and bytes stand for (R8, R28, R49). -/

namespace Sys2Proof.Machine

theorem foldl_base_eq_ofDigits (b : Nat) (ds : List Nat) :
    ds.foldl (fun acc d => b * acc + d) 0 = Nat.ofDigits b ds.reverse := by
  rw [Nat.ofDigits_eq_foldr, List.foldr_reverse]
  simp only [Nat.cast_id, Nat.add_comm]

theorem numberOfDigits_eq_ofDigits (ds : List (Fin 16)) :
    numberOfDigits ds = Nat.ofDigits 16 (ds.reverse.map Fin.val) := by
  rw [List.map_reverse, ← foldl_base_eq_ofDigits, List.foldl_map]
  rfl

theorem numberOfBytes_eq_ofDigits (bs : List Byte) : numberOfBytes bs = Nat.ofDigits 256 (bs.map BitVec.toNat) := by
  induction bs with
  | nil => rfl
  | cons b bs ih => rw [numberOfBytes, ih, List.map_cons, Nat.ofDigits_cons]

/-- 32 hexadecimal digits fit into 128 bits. -/
theorem ofDigits_hex_lt {ds : List (Fin 16)} (h : ds.length ≤ 32) :
    Nat.ofDigits 16 (ds.reverse.map Fin.val) < 2 ^ 128 := by
  have hdigit : ∀ d ∈ ds.reverse.map Fin.val, d < 16 := by simp
  calc Nat.ofDigits 16 (ds.reverse.map Fin.val)
      < 16 ^ (ds.reverse.map Fin.val).length := Nat.ofDigits_lt_base_pow_length (by decide) hdigit
    _ ≤ 16 ^ 32 := Nat.pow_le_pow_right (by decide) (by simpa using h)
    _ = 2 ^ 128 := by norm_num

/-- Byte i of the number is the i-th byte (R28). -/
theorem numberOfBytes_div_mod (bs : List Byte) : ∀ (i : Nat) (hi : i < bs.length),
    numberOfBytes bs / 2 ^ (8 * i) % 2 ^ 8 = bs[i].toNat := by
  induction bs with
  | nil => intro i hi; cases hi
  | cons b bs ih =>
    intro i hi
    have hb := b.isLt
    cases i with
    | zero => simp only [numberOfBytes, List.getElem_cons_zero]; omega
    | succ i =>
      have hdiv : (b.toNat + 256 * numberOfBytes bs) / 2 ^ 8 = numberOfBytes bs := by omega
      rw [numberOfBytes, List.getElem_cons_succ, ← ih i (Nat.lt_of_succ_lt_succ hi), Nat.mul_succ,
        Nat.add_comm (8 * i), pow_add, ← Nat.div_div_eq_div_mul, hdiv]

/-- Sixteen bytes fit into 128 bits. -/
theorem numberOfBytes_lt {bs : List Byte} (h : bs.length = 16) : numberOfBytes bs < 2 ^ 128 := by
  have hbyte : ∀ b ∈ bs.map BitVec.toNat, b < 256 := by
    rw [List.forall_mem_map]
    exact fun b _ => b.isLt
  calc numberOfBytes bs = Nat.ofDigits 256 (bs.map BitVec.toNat) := numberOfBytes_eq_ofDigits bs
    _ < 256 ^ (bs.map BitVec.toNat).length := Nat.ofDigits_lt_base_pow_length (by decide) hbyte
    _ = 2 ^ 128 := by rw [List.length_map, h]; norm_num

theorem byteOf_ofNat_numberOfBytes {bs : List Byte} (h : bs.length = 16) (i : Nat) (hi : i < bs.length) :
    byteOf (BitVec.ofNat 128 (numberOfBytes bs)) i = bs[i] := by
  apply BitVec.eq_of_toNat_eq
  rw [← numberOfBytes_div_mod bs i hi, byteOf, BitVec.extractLsb'_toNat, BitVec.toNat_ofNat,
    Nat.shiftRight_eq_div_pow, Nat.mod_eq_of_lt (numberOfBytes_lt h)]

theorem asmValue?_hex {ds : List (Fin 16)} (h1 : 1 ≤ ds.length) (h32 : ds.length ≤ 32) :
    asmValue? (.hex ds) = some (BitVec.ofNat 128 (numberOfDigits ds)) := by
  simp [asmValue?, AsmValue.wellFormed, h1, h32]

theorem asmValue?_bytes {bs : List Byte} (h : bs.length = 16) :
    asmValue? (.bytes bs) = some (BitVec.ofNat 128 (numberOfBytes bs)) := by
  simp [asmValue?, AsmValue.wellFormed, h]

theorem asmValue?_of_illFormed {v : AsmValue} (h : v.wellFormed = false) : asmValue? v = none := by
  simp [asmValue?, h]

/-- Settles O49: the two forms by their numbers; any other length is ill-formed. -/
theorem valuesOfTheNotation : Obligations.ValuesOfTheNotation := by
  refine ⟨fun ds h1 h32 => ?_, fun bs h => ?_, fun ds h => ?_, fun bs h => ?_, ?_⟩
  · refine ⟨_, asmValue?_hex h1 h32, ?_⟩
    rw [BitVec.toNat_ofNat, numberOfDigits_eq_ofDigits, Nat.mod_eq_of_lt (ofDigits_hex_lt h32)]
  · refine ⟨_, asmValue?_bytes h, fun i => ?_⟩
    rcases Nat.lt_or_ge i 16 with hi | hi
    · have hlen : i < bs.length := by omega
      rw [List.getElem?_eq_getElem hlen, byteOf_ofNat_numberOfBytes h i hlen]
      exact .inl rfl
    · exact .inr hi
  · refine asmValue?_of_illFormed ?_
    simp only [AsmValue.wellFormed, Bool.and_eq_false_iff, decide_eq_false_iff_not]
    omega
  · exact asmValue?_of_illFormed (by simp [AsmValue.wellFormed, h])
  · decide

end Sys2Proof.Machine
end

section
/-! PROOFS. Digits and bytes as written are read back (R49, R50). -/

namespace Sys2Proof.Machine

theorem hexDigit?_hexChar (d : Fin 16) : hexDigit? (hexChar d) = some d := by
  revert d
  decide

theorem decimalDigit?_decimalChar (d : Fin 10) : decimalDigit? (decimalChar d) = some d.val := by
  revert d
  decide

/-- Texts that are read back one by one are read back together. -/
theorem readAll_map {α β γ : Type} {f : α → Option β} {g : γ → α} {h : γ → β}
    (hfg : ∀ c, f (g c) = some (h c)) (cs : List γ) : readAll f (cs.map g) = some (cs.map h) := by
  induction cs with
  | nil => rfl
  | cons c cs ih => simp only [List.map_cons, readAll, hfg, ih]

theorem readAll_hexChar (ds : List (Fin 16)) : readAll hexDigit? (ds.map hexChar) = some ds :=
  (readAll_map (h := id) hexDigit?_hexChar ds).trans (by rw [List.map_id])

theorem decimal?_decimalChar {ds : List (Fin 10)} (h : ds ≠ []) :
    decimal? (ds.map decimalChar) = some (Nat.ofDigits 10 (ds.reverse.map Fin.val)) := by
  rw [decimal?, if_neg (by simp [h]), readAll_map decimalDigit?_decimalChar, Option.map_some, foldl_base_eq_ofDigits,
    List.map_reverse]

theorem byte?_byteText (b : Byte) : byte? (byteText b) = some b := by
  have hb := b.isLt
  simp only [byteText, byte?, hexDigit?_hexChar, Fin.val_ofNat, Option.some.injEq]
  apply BitVec.eq_of_toNat_eq
  rw [BitVec.toNat_ofNat]
  omega

theorem readAll_byteText (bs : List Byte) : readAll byte? (bs.map byteText) = some bs :=
  (readAll_map (h := id) byte?_byteText bs).trans (by rw [List.map_id])

end Sys2Proof.Machine
end

section
/-! PROOFS. Cutting a line into its words (R48, log 7). -/

namespace Sys2Proof.Machine

theorem cutAt_of_forall_not {sep : Char → Bool} {w : List Char} (h : ∀ c ∈ w, sep c = false) :
    cutAt sep w = [w] := by
  induction w with
  | nil => rfl
  | cons c w ih =>
    rw [List.forall_mem_cons] at h
    simp only [cutAt, h.1, ih h.2]

theorem cutAt_append_sep {sep : Char → Bool} {w rest : List Char} {c : Char} (h : ∀ c ∈ w, sep c = false)
    (hc : sep c = true) : cutAt sep (w ++ c :: rest) = w :: cutAt sep rest := by
  induction w with
  | nil => simp only [List.nil_append, cutAt, hc]
  | cons d w ih =>
    rw [List.forall_mem_cons] at h
    simp only [List.cons_append, cutAt, h.1, ih h.2]

/-- A comment ends the text that is read (R48). -/
theorem wordsOf_append_comment {line : List Char} (comment : List Char) (h : ';' ∉ line) :
    wordsOf (line ++ ';' :: comment) = wordsOf line := by
  have hline : ∀ c ∈ line, (c != ';') = true := fun c hc => bne_iff_ne.2 fun heq => h (heq ▸ hc)
  have htext : (line ++ ';' :: comment).takeWhile (· != ';') = line.takeWhile (· != ';') := by
    rw [List.takeWhile_append_of_pos hline, List.takeWhile_eq_self_iff.2 hline]
    simp
  rw [wordsOf, htext, wordsOf]

/-- A character that may stand inside a word: no white space, and no start of a comment. -/
def inWord (c : Char) : Bool := c != ' ' && c != '\t' && c != ';'

/-- A word of a line. -/
def IsWord (w : List Char) : Prop := w ≠ [] ∧ w.all inWord = true

theorem IsWord.inWord_of_mem {w : List Char} (h : IsWord w) {c : Char} (hc : c ∈ w) :
    (c ≠ ' ' ∧ c ≠ '\t') ∧ c ≠ ';' := by
  have hin := List.all_eq_true.1 h.2 c hc
  simpa only [inWord, Bool.and_eq_true, bne_iff_ne] using hin

theorem IsWord.not_sep {w : List Char} (h : IsWord w) : ∀ c ∈ w, (c == ' ' || c == '\t') = false := by
  intro c hc
  obtain ⟨⟨hspace, htab⟩, -⟩ := h.inWord_of_mem hc
  rw [Bool.or_eq_false_iff, beq_eq_false_iff_ne, beq_eq_false_iff_ne]
  exact ⟨hspace, htab⟩

theorem IsWord.no_comment {w : List Char} (h : IsWord w) : ∀ c ∈ w, (c != ';') = true :=
  fun _ hc => bne_iff_ne.2 (h.inWord_of_mem hc).2

theorem IsWord.append {v w : List Char} (hv : IsWord v) (hw : w.all inWord = true) : IsWord (v ++ w) :=
  ⟨by simp [hv.1], by rw [List.all_append, hv.2, hw]; rfl⟩

theorem wordsOf_word {w : List Char} (h : IsWord w) : wordsOf w = [w] := by
  rw [wordsOf, List.takeWhile_eq_self_iff.2 h.no_comment, cutAt_of_forall_not h.not_sep]
  simp [h.1]

theorem wordsOf_word_space {w : List Char} (h : IsWord w) (rest : List Char) :
    wordsOf (w ++ ' ' :: rest) = w :: wordsOf rest := by
  rw [wordsOf, List.takeWhile_append_of_pos h.no_comment, List.takeWhile_cons_of_pos (by decide),
    cutAt_append_sep h.not_sep (by decide), List.filter_cons_of_pos (by simp [h.1]), wordsOf]

/-- Words with one space between them. -/
def spaced : List (List Char) → List Char := List.intercalate [' ']

theorem spaced_cons {w : List Char} {ws : List (List Char)} (h : ws ≠ []) :
    spaced (w :: ws) = w ++ ' ' :: spaced ws := by
  simp [spaced, List.intercalate_cons_of_ne_nil h]

theorem spaced_singleton (w : List Char) : spaced [w] = w := by simp [spaced]

theorem spaced_concat {ws : List (List Char)} (h : ws ≠ []) (w : List Char) :
    spaced (ws ++ [w]) = spaced ws ++ ' ' :: w := by
  induction ws with
  | nil => exact absurd rfl h
  | cons v ws ih =>
    by_cases hnil : ws = []
    · rw [hnil, List.singleton_append, spaced_cons (List.cons_ne_nil _ _), spaced_singleton, spaced_singleton]
    · rw [List.cons_append, spaced_cons (by simp), ih hnil, spaced_cons hnil, List.append_assoc, List.cons_append]

/-- The words of a line are read back. -/
theorem wordsOf_spaced {ws : List (List Char)} (h : ws ≠ []) (hws : ∀ w ∈ ws, IsWord w) :
    wordsOf (spaced ws) = ws := by
  induction ws with
  | nil => exact absurd rfl h
  | cons w ws ih =>
    rw [List.forall_mem_cons] at hws
    obtain ⟨hw, hws⟩ := hws
    by_cases hnil : ws = []
    · rw [hnil, spaced_singleton, wordsOf_word hw]
    · rw [spaced_cons hnil, wordsOf_word_space hw, ih hnil hws]

end Sys2Proof.Machine
end

section
/-! PROOFS. The words of a value and of a statement as written (R48 to R51, log 7). -/

namespace Sys2Proof.Machine

/-- The words with a text put at the end of the last one, as `dropAtEnd?` takes it off. -/
def addAtEnd (sfx : List Char) : List (List Char) → List (List Char)
  | [] => []
  | [w] => [w ++ sfx]
  | w :: ws => w :: addAtEnd sfx ws

section addAtEnd
variable {ws : List (List Char)} (sfx : List Char)

theorem addAtEnd_cons (h : ws ≠ []) (w : List Char) : addAtEnd sfx (w :: ws) = w :: addAtEnd sfx ws := by
  cases ws with
  | nil => exact absurd rfl h
  | cons v ws => rfl

theorem addAtEnd_ne_nil (h : ws ≠ []) : addAtEnd sfx ws ≠ [] := by
  cases ws with
  | nil => exact absurd rfl h
  | cons w ws => cases ws <;> exact List.cons_ne_nil _ _

theorem dropAtEnd?_cons (c : Char) (h : ws ≠ []) (w : List Char) :
    dropAtEnd? c (w :: ws) = (dropAtEnd? c ws).map (w :: ·) := by
  cases ws with
  | nil => exact absurd rfl h
  | cons v ws => rfl

theorem dropAtEnd?_addAtEnd (c : Char) (h : ws ≠ []) : dropAtEnd? c (addAtEnd [c] ws) = some ws := by
  induction ws with
  | nil => exact absurd rfl h
  | cons w ws ih =>
    by_cases hnil : ws = []
    · simp [hnil, addAtEnd, dropAtEnd?, dropLast?]
    · rw [addAtEnd_cons _ hnil, dropAtEnd?_cons _ (addAtEnd_ne_nil _ hnil), ih hnil, Option.map_some]

theorem spaced_addAtEnd (h : ws ≠ []) : spaced (addAtEnd sfx ws) = spaced ws ++ sfx := by
  induction ws with
  | nil => exact absurd rfl h
  | cons w ws ih =>
    by_cases hnil : ws = []
    · rw [hnil, addAtEnd, spaced_singleton, spaced_singleton]
    · rw [addAtEnd_cons _ hnil, spaced_cons (addAtEnd_ne_nil _ hnil), ih hnil, spaced_cons hnil, List.append_assoc,
        List.cons_append]

theorem isWord_addAtEnd (hsfx : sfx.all inWord = true) (h : ∀ w ∈ ws, IsWord w) :
    ∀ w ∈ addAtEnd sfx ws, IsWord w := by
  induction ws with
  | nil => exact h
  | cons v ws ih =>
    rw [List.forall_mem_cons] at h
    obtain ⟨hv, hws⟩ := h
    by_cases hnil : ws = []
    · rw [hnil, addAtEnd, List.forall_mem_singleton]
      exact hv.append hsfx
    · rw [addAtEnd_cons _ hnil, List.forall_mem_cons]
      exact ⟨hv, ih hws⟩

end addAtEnd

theorem inWord_hexChar (d : Fin 16) : inWord (hexChar d) = true := by
  revert d
  decide

theorem inWord_decimalChar (d : Fin 10) : inWord (decimalChar d) = true := by
  revert d
  decide

theorem isWord_byteText (b : Byte) : IsWord (byteText b) := by
  simp [IsWord, byteText, inWord_hexChar]

theorem isWord_decimal {ds : List (Fin 10)} (h : ds ≠ []) : IsWord (ds.map decimalChar) := by
  simp [IsWord, h, inWord_decimalChar]

/-- The words of a value as written; `valueText_eq_spaced` ties them to its text. -/
def valueWords : AsmValue → List (List Char)
  | .hex digits => [['0', 'x'] ++ digits.map hexChar]
  | .bytes bs => (addAtEnd [']'] (bs.map byteText)).modifyHead ('[' :: ·)

theorem valueWords_bytes {bs : List Byte} (h : bs ≠ []) : ∃ first rest,
    addAtEnd [']'] (bs.map byteText) = first :: rest ∧ valueWords (.bytes bs) = ('[' :: first) :: rest := by
  have hne : addAtEnd [']'] (bs.map byteText) ≠ [] := addAtEnd_ne_nil _ (by simp [h])
  obtain ⟨first, rest, hws⟩ := List.exists_cons_of_ne_nil hne
  exact ⟨first, rest, hws, by rw [valueWords, hws, List.modifyHead_cons]⟩

theorem spaced_cons_cons_char (c : Char) (w : List Char) (ws : List (List Char)) :
    spaced ((c :: w) :: ws) = c :: spaced (w :: ws) := by
  by_cases h : ws = []
  · rw [h, spaced_singleton, spaced_singleton]
  · rw [spaced_cons h, spaced_cons h, List.cons_append]

theorem bytesText_eq_spaced (bs : List Byte) : bytesText bs = spaced (bs.map byteText) := by
  induction bs with
  | nil => rfl
  | cons b bs ih =>
    cases bs with
    | nil => exact (spaced_singleton _).symm
    | cons c bs => rw [List.map_cons, spaced_cons (by simp), ← ih]; rfl

theorem bytes_ne_nil {bs : List Byte} (h : (AsmValue.bytes bs).wellFormed = true) : bs ≠ [] := by
  rintro rfl
  cases h

section wellFormed
variable {v : AsmValue} (h : v.wellFormed = true)
include h

theorem valueWords_ne_nil : valueWords v ≠ [] := by
  cases v with
  | hex ds => exact List.cons_ne_nil _ _
  | bytes bs =>
    obtain ⟨first, rest, -, hwords⟩ := valueWords_bytes (bytes_ne_nil h)
    rw [hwords]
    exact List.cons_ne_nil _ _

theorem isWord_valueWords : ∀ w ∈ valueWords v, IsWord w := by
  cases v with
  | hex ds =>
    rw [valueWords, List.forall_mem_singleton]
    exact IsWord.append ⟨by simp, by decide⟩ (by simp [inWord_hexChar])
  | bytes bs =>
    obtain ⟨first, rest, hend, hwords⟩ := valueWords_bytes (bytes_ne_nil h)
    have hall := isWord_addAtEnd [']'] (by decide) (List.forall_mem_map.2 fun b (_ : b ∈ bs) => isWord_byteText b)
    rw [hend, List.forall_mem_cons] at hall
    obtain ⟨hfirst, hrest⟩ := hall
    rw [hwords, List.forall_mem_cons]
    exact ⟨IsWord.append (v := ['[']) ⟨by simp, by decide⟩ hfirst.2, hrest⟩

theorem valueText_eq_spaced : valueText v = spaced (valueWords v) := by
  cases v with
  | hex ds => exact (spaced_singleton _).symm
  | bytes bs =>
    have hne := bytes_ne_nil h
    obtain ⟨first, rest, hend, hwords⟩ := valueWords_bytes hne
    rw [hwords, spaced_cons_cons_char, ← hend, spaced_addAtEnd _ (by simp [hne]), ← bytesText_eq_spaced, valueText]

theorem parseValue_valueWords : parseValue (valueWords v) = some v := by
  cases v with
  | hex ds => exact congrArg (Option.map AsmValue.hex) (readAll_hexChar ds)
  | bytes bs =>
    have hne := bytes_ne_nil h
    obtain ⟨first, rest, hend, hwords⟩ := valueWords_bytes hne
    have hdrop : dropAtEnd? ']' (first :: rest) = some (bs.map byteText) := by
      rw [← hend, dropAtEnd?_addAtEnd _ (by simp [hne])]
    simp only [hwords, parseValue, hdrop, readAll_byteText, Option.map_some]

end wellFormed

/-- A line with a mnemonic and words after it. -/
theorem parseLine_mnemonic {m : List Char} {ws : List (List Char)} {st : AsmStmt} (hm : IsWord m) (hne : ws ≠ [])
    (hws : ∀ w ∈ ws, IsWord w) (hparse : parseWords (m :: ws) = some st) (hst : st.wellFormed = true) :
    parseLine (m ++ ' ' :: spaced ws) = some st := by
  have hwords : wordsOf (m ++ ' ' :: spaced ws) = m :: ws := by rw [wordsOf_word_space hm, wordsOf_spaced hne hws]
  simp only [parseLine, hwords, hparse, hst, if_true]

/-- A line that is one word. -/
theorem parseLine_word {w : List Char} {st : AsmStmt} (hw : IsWord w) (hparse : parseWords [w] = some st)
    (hst : st.wellFormed = true) : parseLine w = some st := by
  simp only [parseLine, wordsOf_word hw, hparse, hst, if_true]

theorem wellFormed_of_parseLine {line : List Char} {st : AsmStmt} (h : parseLine line = some st) :
    st.wellFormed = true := by
  unfold parseLine at h
  split at h
  · split at h
    next hst => cases h; exact hst
    next => cases h
  · cases h

/-- A line before a line break is one statement, and the lines after it follow (R48). -/
theorem parseProgram_line {line rest : List Char} {st : AsmStmt} {sts : List AsmStmt} (hline : '\n' ∉ line)
    (hst : parseLine line = some st) (hrest : parseProgram rest = some sts) :
    parseProgram (line ++ '\n' :: rest) = some (st :: sts) := by
  have hcut : ∀ c ∈ line, (c == '\n') = false := fun c hc => beq_eq_false_iff_ne.2 fun heq => hline (heq ▸ hc)
  rw [parseProgram] at hrest
  rw [parseProgram, cutAt_append_sep hcut (by decide)]
  simp only [readAll, hst, hrest]

section statements
variable {v : AsmValue} (hv : v.wellFormed = true)
include hv

theorem parseLine_ld : parseLine (['L', 'D', ' '] ++ valueText v) = some (.ld v) := by
  rw [valueText_eq_spaced hv]
  exact parseLine_mnemonic (m := ['L', 'D']) ⟨by simp, by decide⟩ (valueWords_ne_nil hv) (isWord_valueWords hv)
    (congrArg (Option.map AsmStmt.ld) (parseValue_valueWords hv)) hv

theorem parseLine_ldd : parseLine (['L', 'D', 'D', ' '] ++ valueText v) = some (.ldd v) := by
  rw [valueText_eq_spaced hv]
  exact parseLine_mnemonic (m := ['L', 'D', 'D']) ⟨by simp, by decide⟩ (valueWords_ne_nil hv) (isWord_valueWords hv)
    (congrArg (Option.map AsmStmt.ldd) (parseValue_valueWords hv)) hv

theorem parseWords_twk {ds : List (Fin 10)} (hds : ds ≠ []) :
    parseWords (['T', 'W', 'K'] :: (addAtEnd [','] (valueWords v) ++ [ds.map decimalChar])) =
      some (.twk v (Nat.ofDigits 10 (ds.reverse.map Fin.val))) := by
  have hvalue : (dropAtEnd? ',' (addAtEnd [','] (valueWords v))).bind parseValue = some v := by
    rw [dropAtEnd?_addAtEnd _ (valueWords_ne_nil hv), Option.bind_some, parseValue_valueWords hv]
  simp only [parseWords, List.getLast?_concat, List.dropLast_concat, Option.bind_some, decimal?_decimalChar hds, hvalue]

theorem parseLine_twk {ds : List (Fin 10)} (hds : ds ≠ []) (hk : 1 ≤ Nat.ofDigits 10 (ds.reverse.map Fin.val)) :
    parseLine (['T', 'W', 'K', ' '] ++ valueText v ++ [',', ' '] ++ ds.map decimalChar) =
      some (.twk v (Nat.ofDigits 10 (ds.reverse.map Fin.val))) := by
  have hne := valueWords_ne_nil hv
  have hend := addAtEnd_ne_nil [','] hne
  have htext : ['T', 'W', 'K', ' '] ++ valueText v ++ [',', ' '] ++ ds.map decimalChar =
      ['T', 'W', 'K'] ++ ' ' :: spaced (addAtEnd [','] (valueWords v) ++ [ds.map decimalChar]) := by
    rw [spaced_concat hend, spaced_addAtEnd _ hne, ← valueText_eq_spaced hv]
    simp
  have hwords : ∀ w ∈ addAtEnd [','] (valueWords v) ++ [ds.map decimalChar], IsWord w := by
    rw [List.forall_mem_append, List.forall_mem_singleton]
    exact ⟨isWord_addAtEnd _ (by decide) (isWord_valueWords hv), isWord_decimal hds⟩
  rw [htext]
  refine parseLine_mnemonic ⟨by simp, by decide⟩ (by simp) hwords (parseWords_twk hv hds) ?_
  rw [AsmStmt.wellFormed, hv, decide_eq_true hk]
  rfl

end statements

/-- `DBL*k` and `NOP*k` as written: a mnemonic with its star, and decimal digits (R50). -/
theorem parseLine_repeat {pre : List Char} {mk : Nat → AsmStmt} {ds : List (Fin 10)} (hpre : IsWord pre)
    (hparse : ∀ k, parseWords [pre ++ k] = (decimal? k).map mk) (hds : ds ≠ [])
    (hst : (mk (Nat.ofDigits 10 (ds.reverse.map Fin.val))).wellFormed = true) :
    parseLine (pre ++ ds.map decimalChar) = some (mk (Nat.ofDigits 10 (ds.reverse.map Fin.val))) := by
  refine parseLine_word (hpre.append (isWord_decimal hds).2) ?_ hst
  rw [hparse, decimal?_decimalChar hds, Option.map_some]

/-- Settles O48: the words and the ports by the table, the written forms by `parseLine_ld` and the lemmas beside it. -/
theorem statementsAndComments : Obligations.StatementsAndComments := by
  refine ⟨fun x => ⟨rfl, rfl, rfl, rfl, rfl⟩, fun idle x => ?_, fun x j => ?_,
    ⟨rfl, rfl, rfl, fun v x h => ?_⟩, ⟨by decide, by decide, by decide⟩,
    fun v hv => ⟨parseLine_ld hv, parseLine_ldd hv⟩, fun ds k hk h1 => ?_,
    fun line comment h => by rw [parseLine, wordsOf_append_comment comment h, parseLine],
    fun line st => wellFormed_of_parseLine, fun line rest st sts => parseProgram_line⟩
  · exact ⟨Pins.ofCW_ctrlWord true false false idle, Pins.ofCW_ctrlWord false false false idle,
      Pins.ofCW_ctrlWord false false true idle, Pins.ofCW_ctrlWord false true false (dinOfTweak x),
      Pins.ofCW_ctrlWord false true true (dinOfTweak x)⟩
  · rw [Fin.getElem_fin, dinOfTweak_getElem x j j.isLt]
    cases x.getLsbD j <;> rfl
  · simp [expandStmt, AsmStmt.wellFormed, wellFormed_of_asmValue? h, h]
  · subst hk
    have hds : ds ≠ [] := by rintro rfl; simp at h1
    exact ⟨parseLine_repeat (mk := .dblTimes) ⟨by simp, by decide⟩ (fun _ => rfl) hds (decide_eq_true h1),
      parseLine_repeat (mk := .nopTimes) ⟨by simp, by decide⟩ (fun _ => rfl) hds (decide_eq_true h1),
      fun v hv => parseLine_twk hv hds h1⟩

end Sys2Proof.Machine
end

section
/-! PROOFS. The forms of Double: the byte loop, every bit, linearity and the inverse (R53 to R57, R61 to R63, R68). -/

namespace Sys2Proof.Machine

theorem outgoingBit_eq_getLsbD (b : TweakBytes) : outgoingBit b = b[15].getLsbD 7 := by
  have h : ∀ c : Byte, ((c >>> 7) == 1#8) = c.getLsbD 7 := by decide
  exact h b[15]

theorem doubleLoopBody_eq_set (b o : TweakBytes) (i : Fin 16) : doubleLoopBody b o i = o.set i (shiftedByte b i) := by
  unfold doubleLoopBody shiftedByte carryIn
  by_cases h : i.val = 0 <;> simp [h]

/-- A byte of `o` that some pass wrote holds the shifted byte, and the others are as they were (R53). -/
theorem foldl_doubleLoopBody_getElem (b : TweakBytes) (i : Fin 16) (order : List (Fin 16)) : ∀ start : TweakBytes,
    (order.foldl (doubleLoopBody b) start)[i] = if i ∈ order then shiftedByte b i else start[i] := by
  induction order with
  | nil => exact fun _ => rfl
  | cons k order ih =>
    intro start
    rw [List.foldl_cons, ih, doubleLoopBody_eq_set]
    by_cases hi : i ∈ order
    · simp [hi]
    · by_cases hk : i = k
      · simp [hk]
      · have hval : ¬ k.val = i.val := fun h => hk (Fin.ext h.symm)
        simp [hi, hk, hval]

/-- Settles O19: after passes over all bytes `o` holds the shifted bytes, whatever the order. -/
theorem doubleIsTheByteLoop : Obligations.DoubleIsTheByteLoop := by
  refine ⟨fun b start order horder => ?_, fun x => bytesOfTweak_tweakOfBytes _⟩
  have hloop : order.foldl (doubleLoopBody b) start = Vector.ofFn (shiftedByte b) := by
    apply Vector.ext
    intro i hi
    rw [Vector.getElem_ofFn]
    exact (foldl_doubleLoopBody_getElem b ⟨i, hi⟩ order start).trans (if_pos (horder _))
  rw [hloop, ← outgoingBit_eq_getLsbD]
  rfl

/-- Settles O20: 0x87 widened to 128 bits is the constant of `double_eq_shift_xor`. -/
theorem doubleIsShiftAndXor : Obligations.DoubleIsShiftAndXor := double_eq_shift_xor

/-- Above byte 0 a bit of Double is the bit below it (R55, R56). -/
theorem double_getLsbD_of_le (x : Tweak) {j : Nat} (h8 : 8 ≤ j) (hj : j < 128) :
    (double x).getLsbD j = x.getLsbD (j - 1) := by
  have hconst : reductionConstant.getLsbD j = false := BitVec.getLsbD_of_ge _ _ h8
  have hpos : 0 < j := by omega
  simp [-BitVec.getLsbD_eq_getElem, double_getLsbD x j hj, hconst, hpos]

/-- Settles O21: a bit of byte 0 by `double_getLsbD` and the bit of 0x87 there, the others by `double_getLsbD_of_le`. -/
theorem doubleBitByBit : Obligations.DoubleBitByBit := by
  intro x
  have hkept (j : Nat) (hj : j < 7) (hconst : reductionConstant.getLsbD (j + 1) = false) :
      (double x).getLsbD (j + 1) = x.getLsbD j := by
    rw [double_getLsbD x _ (by omega), hconst]
    simp [-BitVec.getLsbD_eq_getElem]
  have hflipped (j : Nat) (hj : j < 7) (hconst : reductionConstant.getLsbD (j + 1) = true) :
      (double x).getLsbD (j + 1) = (x.getLsbD j ^^ x.getLsbD 127) := by
    rw [double_getLsbD x _ (by omega), hconst]
    simp [-BitVec.getLsbD_eq_getElem]
  exact ⟨double_getLsbD_zero x, hflipped 0 (by decide) rfl, hflipped 1 (by decide) rfl, hkept 2 (by decide) rfl,
    hkept 3 (by decide) rfl, hkept 4 (by decide) rfl, hkept 5 (by decide) rfl, hflipped 6 (by decide) rfl,
    fun j h8 hj => double_getLsbD_of_le x h8 (by omega)⟩

theorem double_of_bit127 {x : Tweak} (h : x.getLsbD 127 = true) : double x = (x <<< 1) ^^^ 0x87#128 := by
  rw [double_eq_shift_xor, if_pos h]

theorem double_of_not_bit127 {x : Tweak} (h : x.getLsbD 127 = false) : double x = x <<< 1 := by
  rw [double_eq_shift_xor, h, if_neg Bool.false_ne_true, BitVec.xor_zero]

/-- The top bit of the result is the input's bit 126, with or without a reduction (R57). -/
theorem byteOf_double_top (x : Tweak) : (byteOf (double x) 15).getLsbD 7 = x.getLsbD 126 := by
  rw [byteOf_getLsbD _ _ _ (by decide), double_getLsbD_of_le x (by decide) (by decide)]

/-- Settles O23: the two cases of bit 127 exclude each other. -/
theorem reductionReadsTheInputsBit127 : Obligations.ReductionReadsTheInputsBit127 :=
  fun x => ⟨(byteOf_getLsbD x 15 7 (by decide)).symm, double_of_bit127, double_of_not_bit127, byteOf_double_top x⟩

theorem double_xor (a b : Tweak) : double (a ^^^ b) = double a ^^^ double b := by
  apply BitVec.eq_of_getLsbD_eq
  intro j hj
  simp only [BitVec.getLsbD_xor, double_getLsbD _ j hj, Bool.and_xor_distrib_left, Bool.and_xor_distrib_right,
    Bool.xor_assoc, Bool.xor_left_comm]

/-- Settles O25: every bit of Double is linear. -/
theorem doubleIsLinear : Obligations.DoubleIsLinear := double_xor

/-- Halve undoes the reduction, which bit 0 of the result tells, and shifts back (R63). -/
theorem halve_double (x : Tweak) : halve (double x) = x := by
  have hshift : double x ^^^ (if x.getLsbD 127 then 0x87#128 else 0#128) = x <<< 1 := by
    rw [double_eq_shift_xor, BitVec.xor_assoc, BitVec.xor_self, BitVec.xor_zero]
  rw [halve, double_getLsbD_zero, hshift]
  apply BitVec.eq_of_getLsbD_eq
  intro j hj
  by_cases h : j = 127
  · subst h
    simp
  · have hlow : 1 + j < 128 := by omega
    have hnot : j < 127 := by omega
    simp [-BitVec.getLsbD_eq_getElem, hlow, hnot]

theorem double_injective : Function.Injective double := Function.LeftInverse.injective halve_double

theorem double_bijective : Function.Bijective double := Finite.injective_iff_bijective.1 double_injective

/-- Settles O27: a left inverse of a bijection is its inverse on both sides. -/
theorem halveInvertsDouble : Obligations.HalveInvertsDouble :=
  ⟨double_bijective, halve_double, Function.LeftInverse.rightInverse_of_surjective halve_double double_bijective.2⟩

theorem double_eq_zero_iff (x : Tweak) : double x = 0 ↔ x = 0 := by
  constructor
  · exact fun h => double_injective (h.trans double_zero.symm)
  · rintro rfl
    exact double_zero

/-- Settles O26: Double is injective with `double_zero`. -/
theorem doubleIsZeroOnlyAtZero : Obligations.DoubleIsZeroOnlyAtZero :=
  fun x => ⟨double_eq_zero_iff x, double_of_not_bit127, (double_getLsbD_zero x).trans⟩

/-- Bit 7 of a byte is the carry into the byte above it (R53). -/
theorem byteOf_double_carry (x : Tweak) (i : Nat) (hi : i < 15) :
    (byteOf (double x) (i + 1)).getLsbD 0 = (byteOf x i).getLsbD 7 := by
  rw [byteOf_getLsbD _ _ _ (by decide), byteOf_getLsbD _ _ _ (by decide),
    double_getLsbD_of_le x (by omega) (by omega)]
  exact congrArg _ (by omega)

/-- Settles O30: the values of the table by the shift and the XOR, the rows for all tweaks by the lemmas above. -/
theorem doubleCornerCases : Obligations.DoubleCornerCases := by
  refine ⟨double_zero, ?_, ?_, ?_, byteOf_double_carry, fun x h => ?_, ?_, ?_, byteOf_double_top,
    fun x y k hne => (double_injective.iterate k).ne hne⟩
  · exact double_of_bit127 (by decide)
  · exact double_of_bit127 (by decide)
  · exact double_of_bit127 (by decide)
  · exact (double_getLsbD_of_le x (by decide) (by decide)).trans h
  · exact double_of_not_bit127 (by decide)
  · exact double_of_bit127 (by decide)

end Sys2Proof.Machine
end

section
/-! PROOFS. Tweaks as polynomials over GF(2) and as elements of the ring modulo the field polynomial, where Double is
the multiplication by x (R56, R58, R64). -/

namespace Sys2Proof.Field

open Polynomial Machine

theorem coeff_poly (x : Tweak) (j : Nat) : (poly x).coeff j = if x.getLsbD j then 1 else 0 := by
  have hterm (k : Nat) : (if x.getLsbD k then (X ^ k : (ZMod 2)[X]) else 0).coeff j =
      if j = k then (if x.getLsbD k then 1 else 0) else 0 := by
    cases x.getLsbD k <;> simp [coeff_X_pow]
  simp only [poly, finsetSum_coeff, hterm, Finset.sum_ite_eq, Finset.mem_range]
  rcases Nat.lt_or_ge j 128 with hj | hj
  · rw [if_pos hj]
  · rw [if_neg (Nat.not_lt.2 hj), BitVec.getLsbD_of_ge _ _ hj]
    rfl

theorem coeff_poly_eq_one_iff (x : Tweak) (j : Nat) : (poly x).coeff j = 1 ↔ x.getLsbD j = true := by
  rw [coeff_poly]
  split_ifs with h <;> simp [h]

theorem poly_injective : Function.Injective poly := by
  intro x y h
  apply BitVec.eq_of_getLsbD_eq
  intro j _
  rw [Bool.eq_iff_iff, ← coeff_poly_eq_one_iff, ← coeff_poly_eq_one_iff, h]

theorem poly_xor (x y : Tweak) : poly (x ^^^ y) = poly x + poly y := by
  ext j
  rw [coeff_add, coeff_poly, coeff_poly, coeff_poly, BitVec.getLsbD_xor]
  cases x.getLsbD j <;> cases y.getLsbD j <;> decide

theorem degree_poly_lt (x : Tweak) : (poly x).degree < 128 := by
  refine (degree_lt_iff_coeff_zero _ 128).2 fun j hj => ?_
  rw [coeff_poly, BitVec.getLsbD_of_ge _ _ hj]
  rfl

theorem poly_twoPow (k : Nat) (hk : k < 128) : poly (BitVec.twoPow 128 k) = X ^ k := by
  ext j
  rw [coeff_poly, coeff_X_pow, BitVec.getLsbD_twoPow]
  simp [hk, eq_comm]

/-- The bits of 0x87 (R56). -/
theorem reductionConstant_getLsbD_iff (j : Nat) :
    reductionConstant.getLsbD j = true ↔ j = 7 ∨ j = 2 ∨ j = 1 ∨ j = 0 := by
  rcases Nat.lt_or_ge j 8 with hj | hj
  · revert j
    decide
  · rw [BitVec.getLsbD_of_ge _ _ hj]
    simp only [Bool.false_eq_true, false_iff]
    omega

theorem poly_reductionConstant : poly (BitVec.zeroExtend 128 reductionConstant) = X ^ 7 + X ^ 2 + X + 1 := by
  have hsum : BitVec.zeroExtend 128 reductionConstant =
      BitVec.twoPow 128 7 ^^^ BitVec.twoPow 128 2 ^^^ BitVec.twoPow 128 1 ^^^ BitVec.twoPow 128 0 := rfl
  simp [hsum, poly_xor, poly_twoPow]

theorem modulus_eq : modulus = X ^ 128 + poly (BitVec.zeroExtend 128 reductionConstant) := by
  rw [poly_reductionConstant, ← add_assoc, ← add_assoc, ← add_assoc]
  unfold modulus
  with_reducible rfl

theorem modulus_monic : modulus.Monic := by
  rw [modulus_eq]
  exact monic_X_pow_add (degree_poly_lt _)

theorem degree_modulus : modulus.degree = 128 := by
  rw [modulus_eq, degree_add_eq_left_of_degree_lt] <;> rw [degree_X_pow]
  · rfl
  · exact degree_poly_lt _

/-- The element of the ring modulo the field polynomial that a tweak stands for. -/
noncomputable def elem (x : Tweak) : AdjoinRoot modulus := AdjoinRoot.mk modulus (poly x)

/-- A tweak is the remainder of every polynomial that stands for the same element. -/
theorem poly_eq_modByMonic {y : Tweak} {p : (ZMod 2)[X]} (h : elem y = AdjoinRoot.mk modulus p) :
    poly y = p %ₘ modulus := by
  have hself : poly y %ₘ modulus = poly y :=
    (modByMonic_eq_self_iff modulus_monic).2 (by rw [degree_modulus]; exact degree_poly_lt y)
  rw [← hself]
  exact modByMonic_eq_of_dvd_sub modulus_monic (AdjoinRoot.mk_eq_mk.1 h)

theorem elem_injective : Function.Injective elem := by
  intro x y h
  apply poly_injective
  rw [poly_eq_modByMonic h, ← poly_eq_modByMonic rfl]

theorem elem_xor (x y : Tweak) : elem (x ^^^ y) = elem x + elem y := by
  rw [elem, poly_xor, map_add, elem, elem]

theorem elem_zero : elem 0#128 = 0 := by
  have h := elem_xor 0#128 0#128
  rwa [BitVec.xor_self, left_eq_add] at h

theorem elem_twoPow (k : Nat) (hk : k < 128) : elem (BitVec.twoPow 128 k) = AdjoinRoot.root modulus ^ k := by
  rw [elem, poly_twoPow k hk, map_pow, AdjoinRoot.mk_X]

theorem elem_one : elem 1#128 = 1 := (elem_twoPow 0 (by decide)).trans (pow_zero _)

/-- x^128 is what the reduction constant stands for (R56). -/
theorem mk_X_pow_128 :
    AdjoinRoot.mk modulus (X ^ 128) = elem (BitVec.zeroExtend 128 reductionConstant) := by
  rw [elem, AdjoinRoot.mk_eq_mk, CharTwo.sub_eq_add, ← modulus_eq]

/-- The shift multiplies by x, and the bit shifted out is the coefficient of x^128. -/
theorem X_mul_poly (x : Tweak) : X * poly x = poly (x <<< 1) + if x.getLsbD 127 then X ^ 128 else 0 := by
  ext j
  have htop : (if x.getLsbD 127 then (X ^ 128 : (ZMod 2)[X]) else 0).coeff j =
      if j = 128 ∧ x.getLsbD 127 then 1 else 0 := by
    cases x.getLsbD 127 <;> simp [coeff_X_pow]
  rw [coeff_add, htop, coeff_poly, BitVec.getLsbD_shiftLeft]
  cases j with
  | zero => simp
  | succ j =>
    rw [coeff_X_mul, coeff_poly]
    rcases Nat.lt_trichotomy j 127 with hj | rfl | hj
    · have hlt : j + 1 < 128 := by omega
      have hne : j ≠ 127 := by omega
      simp [-BitVec.getLsbD_eq_getElem, hlt, hne]
    · simp
    · have hge : ¬ j + 1 < 128 := by omega
      have hne : j ≠ 127 := by omega
      rw [BitVec.getLsbD_of_ge _ _ (by omega)]
      simp [hge, hne]

/-- Double multiplies by x (R58). -/
theorem elem_double (x : Tweak) : elem (double x) = AdjoinRoot.root modulus * elem x := by
  have hmul : AdjoinRoot.root modulus * elem x =
      elem (x <<< 1) + AdjoinRoot.mk modulus (if x.getLsbD 127 then X ^ 128 else 0) := by
    rw [← AdjoinRoot.mk_X, elem, ← map_mul, X_mul_poly, map_add, elem]
  rw [hmul]
  cases h : x.getLsbD 127
  · simp [double_of_not_bit127 h]
  · rw [if_pos rfl, mk_X_pow_128, ← elem_xor, double_of_bit127 h]
    rfl

/-- k doublings multiply by x^k (R64). -/
theorem elem_iterate_double (k : Nat) (x : Tweak) :
    elem (double^[k] x) = AdjoinRoot.root modulus ^ k * elem x := by
  induction k with
  | zero => rw [Function.iterate_zero_apply, pow_zero, one_mul]
  | succ k ih => rw [Function.iterate_succ_apply', elem_double, ih, ← mul_assoc, pow_succ']

/-- Settles O22: the constant by its bits, x^128 by `mk_X_pow_128`, the other bytes by `double_getLsbD_of_le`. -/
theorem reductionConstantIsTheFieldPolynomial : Obligations.ReductionConstantIsTheFieldPolynomial := by
  refine ⟨reductionConstant_getLsbD_iff, poly_reductionConstant, modulus_eq,
    (poly_eq_modByMonic mk_X_pow_128.symm).symm, fun x i hpos hi => ?_⟩
  apply BitVec.eq_of_getLsbD_eq
  intro j hj
  rw [byteOf_getLsbD _ _ _ hj, byteOf_getLsbD _ _ _ hj, double_getLsbD_of_le x (by omega) (by omega)]
  have hlt : 8 * i + j < 128 := by omega
  have hge : ¬ 8 * i + j < 1 := by omega
  simp [-BitVec.getLsbD_eq_getElem, BitVec.getLsbD_shiftLeft, hlt, hge]

/-- Settles O24: `elem_double` read as a remainder. -/
theorem doubleMultipliesByX : Obligations.DoubleMultipliesByX := by
  refine ⟨?_, fun x => poly_eq_modByMonic ?_, fun x j _ => coeff_poly_eq_one_iff x j⟩
  · exact (poly_twoPow 1 (by decide)).trans (pow_one X)
  · rw [elem_double, map_mul, AdjoinRoot.mk_X, elem]

/-- Below bit 127 the one set bit moves up (R64). -/
theorem iterate_double_one (k : Nat) (hk : k ≤ 127) : double^[k] 1#128 = BitVec.twoPow 128 k := by
  apply elem_injective
  rw [elem_iterate_double, elem_twoPow k (by omega), elem_one, mul_one]

theorem root_pow_128 :
    AdjoinRoot.root modulus ^ 128 = elem 0x87#128 := by
  rw [← AdjoinRoot.mk_X, ← map_pow, mk_X_pow_128]
  rfl

/-- The reduction constant squared, over GF(2) (R64). -/
theorem poly_reductionConstant_sq : poly 0x87#128 * poly 0x87#128 = poly 0x4015#128 := by
  have hsum : 0x4015#128 =
      BitVec.twoPow 128 14 ^^^ BitVec.twoPow 128 4 ^^^ BitVec.twoPow 128 2 ^^^ BitVec.twoPow 128 0 := rfl
  have hconst : poly 0x87#128 = X ^ 7 + X ^ 2 + X + 1 := poly_reductionConstant
  rw [hsum, hconst, ← sq]
  simp [poly_xor, poly_twoPow, CharTwo.add_sq, ← pow_mul]

/-- Settles O28: the powers by `elem_iterate_double`; x^256 is the square of x^128. -/
theorem iteratedDoubleMultipliesByPowers : Obligations.IteratedDoubleMultipliesByPowers := by
  have h128 : double^[128] 1#128 = 0x87#128 := elem_injective (by
    rw [elem_iterate_double, elem_one, mul_one, root_pow_128])
  refine ⟨fun x k => poly_eq_modByMonic ?_, iterate_double_one, h128, ?_, ?_⟩
  · rw [elem_iterate_double, map_mul, map_pow, AdjoinRoot.mk_X, elem, mul_comm]
  · rw [Function.iterate_succ_apply', h128]
    decide
  · rw [Function.iterate_add_apply double 128 128, h128]
    apply elem_injective
    rw [elem_iterate_double, root_pow_128, elem, ← map_mul, poly_reductionConstant_sq, elem]

end Sys2Proof.Field
end

section
/-! PROOFS. The order of Double (R65). The powers of x that decide it are computed with numbers, by square and
multiply; `exists_mulBits` and `powBits_eq` tie that computation to Double. -/

namespace Sys2Proof.Field

open Polynomial Machine

/-- The order of x: 2^128 - 1 (R65). -/
def fullOrder : Nat := 0xFFFFFFFFFFFFFFFFFFFFFFFFFFFFFFFF

/-- Double on the number of a tweak, as R54 has it.
The functions of `Nat` are named directly, since the kernel evaluates those on numerals at once. -/
def doubleBits (a : Nat) : Nat :=
  ((a.mul 2).mod 0x100000000000000000000000000000000).xor ((a.div 0x80000000000000000000000000000000).mul 0x87)

/-- The product, modulo the field polynomial, of `a` and the low n bits of `b`. -/
def mulBits : Nat → Nat → Nat → Nat
  | 0, _, _ => 0
  | n + 1, a, b => ((b.mod 2).mul a).xor (mulBits n (doubleBits a) (b.div 2))

/-- x to the power of an exponent below 2^n, by squaring. -/
def powBits : Nat → Nat → Nat
  | 0, _ => 1
  | n + 1, e =>
    let y := powBits n (e.div 2)
    let z := mulBits 128 y y
    if e.mod 2 = 1 then doubleBits z else z

theorem doubleBits_toNat (x : Tweak) : doubleBits x.toNat = (double x).toNat := by
  have htop : x.toNat / 0x80000000000000000000000000000000 = if x.getLsbD 127 then 1 else 0 := by
    have hx := x.isLt
    simp only [← BitVec.testBit_toNat, Nat.testBit_eq_decide_div_mod_eq, decide_eq_true_eq]
    split_ifs <;> omega
  have hreduce : x.toNat / 0x80000000000000000000000000000000 * 0x87 =
      (if x.getLsbD 127 then 0x87#128 else 0#128).toNat := by
    rw [htop]
    split_ifs <;> rfl
  have hshift : x.toNat * 2 % 0x100000000000000000000000000000000 = (x <<< 1).toNat := by
    rw [BitVec.toNat_shiftLeft, Nat.shiftLeft_eq]
  rw [double_eq_shift_xor, BitVec.toNat_xor, ← hreduce, ← hshift]
  rfl

/-- `mulBits` multiplies by the powers of x that the bits of `b` stand for. -/
theorem exists_mulBits (n : Nat) : ∀ (x : Tweak) (b : Nat), ∃ z : Tweak, mulBits n x.toNat b = z.toNat ∧
    elem z = elem x * ∑ j ∈ Finset.range n, if b.testBit j then AdjoinRoot.root modulus ^ j else 0 := by
  induction n with
  | zero => exact fun x b => ⟨0#128, rfl, by simp [elem_zero]⟩
  | succ n ih =>
    intro x b
    obtain ⟨z, hz, helem⟩ := ih (double x) (b / 2)
    refine ⟨(if b.testBit 0 then x else 0#128) ^^^ z, ?_, ?_⟩
    · have hlow : b % 2 * x.toNat = (if b.testBit 0 then x else 0#128).toNat := by
        rcases Nat.mod_two_eq_zero_or_one b with h | h <;> simp [Nat.testBit_zero, h]
      rw [BitVec.toNat_xor, ← hz, ← hlow, ← doubleBits_toNat]
      rfl
    · have hlow : elem (if b.testBit 0 then x else 0#128) =
          elem x * if b.testBit 0 then AdjoinRoot.root modulus ^ 0 else 0 := by
        split_ifs
        · rw [pow_zero, mul_one]
        · rw [elem_zero, mul_zero]
      have hhigh (j : Nat) : (if b.testBit (j + 1) then AdjoinRoot.root modulus ^ (j + 1) else 0) =
          AdjoinRoot.root modulus * if (b / 2).testBit j then AdjoinRoot.root modulus ^ j else 0 := by
        rw [Nat.testBit_succ, mul_ite, mul_zero, pow_succ']
      rw [elem_xor, helem, elem_double, hlow, Finset.sum_range_succ', mul_add, add_comm]
      simp only [hhigh, ← Finset.mul_sum]
      rw [mul_comm (AdjoinRoot.root modulus), mul_assoc]

theorem elem_eq_sum (x : Tweak) :
    elem x = ∑ j ∈ Finset.range 128, if x.toNat.testBit j then AdjoinRoot.root modulus ^ j else 0 := by
  rw [elem, poly, map_sum]
  refine Finset.sum_congr rfl fun j _ => ?_
  rw [BitVec.testBit_toNat]
  split_ifs
  · rw [map_pow, AdjoinRoot.mk_X]
  · rw [map_zero]

/-- The product of two tweaks in the ring. -/
theorem exists_mulBits_toNat (x y : Tweak) :
    ∃ z : Tweak, mulBits 128 x.toNat y.toNat = z.toNat ∧ elem z = elem x * elem y := by
  rw [elem_eq_sum y]
  exact exists_mulBits 128 x y.toNat

/-- A power of x is a doubling of 1 (R64). -/
theorem powBits_eq (n : Nat) : ∀ e : Nat, e < 2 ^ n → powBits n e = (double^[e] 1#128).toNat := by
  induction n with
  | zero =>
    intro e he
    rw [Nat.lt_one_iff.1 he]
    rfl
  | succ n ih =>
    intro e he
    obtain ⟨z, hz, helem⟩ := exists_mulBits_toNat (double^[e / 2] 1#128) (double^[e / 2] 1#128)
    have hsquare : z = double^[e / 2 + e / 2] 1#128 := elem_injective (by
      rw [helem, elem_iterate_double, elem_iterate_double, elem_one, mul_one, mul_one, pow_add])
    have hhalf : powBits n (e.div 2) = (double^[e / 2] 1#128).toNat := ih (e / 2) (by omega)
    simp only [powBits, hhalf, hz]
    split_ifs with h
    · rw [doubleBits_toNat, hsquare, ← Function.iterate_succ_apply' double]
      have he : (e / 2 + e / 2).succ = e := by have : e % 2 = 1 := h; omega
      rw [he]
    · have he : e / 2 + e / 2 = e := by have : ¬ e % 2 = 1 := h; omega
      rw [hsquare, he]

theorem root_pow_fullOrder : AdjoinRoot.root modulus ^ fullOrder = 1 := by
  have hpow : powBits 128 fullOrder = 1 := by decide +kernel
  rw [powBits_eq 128 fullOrder (by decide)] at hpow
  have h : double^[fullOrder] 1#128 = 1#128 := BitVec.eq_of_toNat_eq hpow
  rw [← mul_one (AdjoinRoot.root modulus ^ fullOrder), ← elem_one, ← elem_iterate_double, h]

/-- The prime factors p of 2^128 - 1, each with the inverse of x^((2^128 - 1)/p) - 1 in the ring. -/
def orderCertificate : List (Nat × Tweak) :=
  [(3, 0x295ac0b1f4731af9676aac9fa4b20b09#128),
   (5, 0x8b49849339334e30987a355cbf0c842b#128),
   (17, 0x8f6b313e935b8e2cabcd8e4694e5644#128),
   (257, 0x96b5056dc61c7d38d7c0dc96b4509564#128),
   (641, 0xeac48ea483f4bb66dfd4ebf49c5eeea3#128),
   (65537, 0xca270b3ec93bb01087424ff269bb218c#128),
   (274177, 0x25690e2a74a8d35d41b4ccbdec90e864#128),
   (6700417, 0xfb9043b5b964d0d44ce89147bf2b6a67#128),
   (67280421310721, 0x160e54d7fb0564aeac2fd1f161f6cd1#128)]

/-- The inverses are inverses: evaluated by the kernel. -/
theorem orderCertificate_checks : ∀ c ∈ orderCertificate,
    mulBits 128 c.2.toNat ((powBits 128 (fullOrder / c.1)).xor 1) = 1 := by
  decide +kernel

/-- The largest factor is prime: 3 has the order 67280421310720 modulo it (Lucas). -/
theorem prime_67280421310721 : Nat.Prime 67280421310721 := by
  have hfactors (r : Nat) (hr : r.Prime) (hdvd : r ∣ 67280421310720) :
      r = 2 ∨ r = 5 ∨ r = 47 ∨ r = 373 ∨ r = 2998279 := by
    have hmem := (Nat.mem_primeFactorsList (by decide)).2 ⟨hr, hdvd⟩
    simpa [Nat.primeFactorsList_ofNat] using hmem
  refine lucas_primality _ 3 (by reduce_mod_char) fun r hr hdvd => ?_
  rcases hfactors r hr hdvd with rfl | rfl | rfl | rfl | rfl <;> reduce_mod_char <;> decide

theorem prime_of_mem_orderCertificate : ∀ c ∈ orderCertificate, c.1.Prime := by
  simp only [orderCertificate, List.forall_mem_cons]
  refine ⟨?_, ?_, ?_, ?_, ?_, ?_, ?_, ?_, prime_67280421310721, nofun⟩ <;> norm_num

theorem fullOrder_eq_prod : fullOrder = (orderCertificate.map Prod.fst).prod := by decide

theorem exists_certificate_of_prime_dvd {p : Nat} (hp : p.Prime) (hdvd : p ∣ fullOrder) :
    ∃ c ∈ orderCertificate, c.1 = p := by
  rw [fullOrder_eq_prod, hp.prime.dvd_prod_iff] at hdvd
  obtain ⟨q, hq, hpq⟩ := hdvd
  obtain ⟨c, hc, rfl⟩ := List.mem_map.1 hq
  exact ⟨c, hc, ((Nat.prime_dvd_prime_iff_eq hp (prime_of_mem_orderCertificate c hc)).1 hpq).symm⟩

/-- A proper divisor of the order brings back 0 alone, since x^((2^128 - 1)/p) - 1 has an inverse. -/
theorem eq_zero_of_iterate_div {c : Nat × Tweak} (hc : c ∈ orderCertificate) {x : Tweak}
    (h : double^[fullOrder / c.1] x = x) : x = 0 := by
  obtain ⟨z, hz, helem⟩ := exists_mulBits_toNat c.2 (double^[fullOrder / c.1] 1#128 ^^^ 1#128)
  have hcheck := orderCertificate_checks c hc
  have hlt : fullOrder / c.1 < 2 ^ 128 := (Nat.div_le_self _ _).trans_lt (by decide)
  rw [powBits_eq 128 _ hlt] at hcheck
  have hone : z = 1#128 := BitVec.eq_of_toNat_eq (hz.symm.trans hcheck)
  have hsame : (AdjoinRoot.root modulus ^ (fullOrder / c.1) + 1) * elem x = 0 := by
    rw [add_mul, one_mul, ← elem_iterate_double, ← elem_xor, h, BitVec.xor_self, elem_zero]
  apply elem_injective
  calc elem x = elem z * elem x := by rw [hone, elem_one, one_mul]
    _ = elem c.2 * ((AdjoinRoot.root modulus ^ (fullOrder / c.1) + 1) * elem x) := by
      rw [helem, elem_xor, elem_iterate_double, elem_one, mul_one, mul_assoc]
    _ = elem 0 := by rw [hsame, mul_zero]; exact elem_zero.symm

/-- The doublings of a non-zero tweak have no shorter period (R65). -/
theorem minimalPeriod_double {x : Tweak} (hx : x ≠ 0) : Function.minimalPeriod double x = fullOrder := by
  have hfull : Function.IsPeriodicPt double fullOrder x := elem_injective (by
    rw [elem_iterate_double, root_pow_fullOrder, one_mul])
  obtain ⟨m, hm⟩ := hfull.minimalPeriod_dvd
  by_contra hne
  have hm1 : m ≠ 1 := fun h => hne (by rw [hm, h, mul_one])
  obtain ⟨p, hp, k, rfl⟩ := Nat.exists_prime_and_dvd hm1
  obtain ⟨c, hc, rfl⟩ := exists_certificate_of_prime_dvd hp (hm ▸ (Dvd.intro k rfl).mul_left _)
  refine hx (eq_zero_of_iterate_div hc (Function.isPeriodicPt_iff_minimalPeriod_dvd.2 ⟨k, ?_⟩))
  refine Nat.div_eq_of_eq_mul_right hp.pos (hm.trans ?_)
  ring

/-- Settles O29: a period is a multiple of the smallest one. -/
theorem doubleHasFullOrder : Obligations.DoubleHasFullOrder := by
  intro x k hx
  have horder : (2 ^ 128 - 1 : Nat) = fullOrder := by decide
  rw [horder, ← minimalPeriod_double hx]
  exact Function.isPeriodicPt_iff_minimalPeriod_dvd

end Sys2Proof.Field
end

section
/-! PROOFS. The tweaks of a sector as the host makes them: a load, and DBL edges among other acts (R66, R67). -/

namespace Sys2Proof.Machine

/-- An act between edges, while a tweak is loaded, leaves `T`, `V` and what the coming edges sample (R21, R22, R35). -/
theorem step_between_edges_sampled {s : State} {e : HostEvent} {es rest : List HostEvent} (h : s.host = e :: rest)
    (hedge : e ≠ .edge) (hpower : e ≠ .powerUp) (hv : s.v = true) :
    ∃ u, step s = .next u ∧ u.t = s.t ∧ u.v = true ∧ u.host = rest ∧
      sampled u.pins es = sampled s.pins (e :: es) := by
  cases e with
  | drive p => exact ⟨_, step_drive s p rest h, rfl, hv, rfl, rfl⟩
  | edge => exact absurd rfl hedge
  | look => exact ⟨_, step_look s rest h, rfl, hv, rfl, rfl⟩
  | takeTweak => exact ⟨_, (Transition.takeTweak rest h hv).step_eq, rfl, hv, rfl, rfl⟩
  | powerUp => exact absurd rfl hpower

/-- DBL and NOP keep `V`, and one DBL more is one doubling more (R69, R70). -/
theorem perform_dbl_or_nop {i : Instr} (hi : i = .dbl ∨ i = .nop) (ops : List Instr) (s : State) :
    (s.perform i).v = s.v ∧ double^[ops.count .dbl] (s.perform i).t = double^[(i :: ops).count .dbl] s.t := by
  rcases hi with rfl | rfl
  · rw [List.count_cons_self]
    exact ⟨rfl, rfl⟩
  · rw [List.count_cons_of_ne (by decide)]
    exact ⟨rfl, rfl⟩

/-- While a tweak is loaded, a script whose edges sample only DBL and NOP doubles it once for each DBL (R66). -/
theorem runsTo_of_sampled_dbl_nop (rest : List HostEvent) (script : List HostEvent) :
    ∀ (s : State) (ops : List Instr), s.host = script ++ rest → s.v = true → HostEvent.powerUp ∉ script →
      sampled s.pins script = ops.map Except.ok → (∀ i ∈ ops, i = .dbl ∨ i = .nop) →
      ∃ u, runsTo script.length s u ∧ u.t = double^[ops.count .dbl] s.t ∧ u.v = true ∧ u.host = rest := by
  induction script with
  | nil =>
    intro s ops hhost hv _ hops _
    rw [List.map_eq_nil_iff.1 hops.symm]
    exact ⟨s, run_zero s, rfl, hv, hhost⟩
  | cons e script ih =>
    intro s ops hhost hv hpower hops hkind
    rw [List.mem_cons, not_or] at hpower
    obtain ⟨hpower_e, hpower⟩ := hpower
    by_cases hedge : e = .edge
    · subst hedge
      obtain ⟨i, ops, rfl, hi, hops⟩ := List.map_eq_cons_iff.1 hops.symm
      rw [List.forall_mem_cons] at hkind
      obtain ⟨hv', ht⟩ := perform_dbl_or_nop hkind.1 ops (s.hostRest (script ++ rest))
      obtain ⟨u, hrun, hu, huv, huhost⟩ := ih ((s.hostRest (script ++ rest)).perform i) ops (State.perform_host _ i)
        (hv'.trans hv) hpower (by rw [State.perform_pins]; exact hops.symm) hkind.2
      exact ⟨u, runsTo_succ_of_step (step_edge_of_decode hhost hi.symm) hrun, hu.trans ht, huv, huhost⟩
    · obtain ⟨w, hstep, ht, hwv, hwhost, hsampled⟩ := step_between_edges_sampled hhost hedge (Ne.symm hpower_e) hv
      obtain ⟨u, hrun, hu, huv, huhost⟩ := ih w ops hwhost hwv hpower (hsampled.trans hops) hkind
      exact ⟨u, runsTo_succ_of_step hstep hrun, by rw [hu, ht], huv, huhost⟩

/-- Settles O38: the load by `step_edge_of_decode`, the script after it by `runsTo_of_sampled_dbl_nop`. -/
theorem tweakSequenceIsRepeatedDoubling : Obligations.TweakSequenceIsRepeatedDoubling := by
  refine ⟨fun s x script rest ops hhost hd hpower hops hkind => ?_, fun s x es hhost hd =>
    ⟨_, step_edge_of_decode hhost hd, rfl, rfl⟩⟩
  obtain ⟨u, hrun, ht, hv, huhost⟩ := runsTo_of_sampled_dbl_nop rest script
    ((s.hostRest (script ++ rest)).perform (.ld x)) ops rfl rfl hpower hops hkind
  refine ⟨u, ?_, ht, hv, huhost⟩
  rw [Nat.add_comm]
  exact runsTo_succ_of_step (step_edge_of_decode hhost hd) hrun

/-- Settles O40: the count is the ceiling by arithmetic, and the DBL after the load are one fewer. -/
theorem sectorNeedsCeilTweaks : Obligations.SectorNeedsCeilTweaks := by
  intro len x s hlen
  obtain ⟨ht, hv⟩ := foldl_perform_replicate_dbl (tweakCount len - 1) (s.perform (.ld x))
  refine ⟨?_, ?_, _, afterIssuing_foldl_perform (tweakSequence x (tweakCount len)) s, ht, hv⟩
  · rw [tweakCount]
    omega
  · rw [tweakCount]
    omega

end Sys2Proof.Machine
end

section
/-! PROOFS. What the commands NOP, DBL, LD and LDD do to the block, and the loads that are refused (R69 to R72). -/

namespace Sys2Proof.Machine

theorem afterIssuing_of_outputs {is : List Instr} {s : State} {o : Outputs}
    (h : (is.foldl State.perform s).outputs = o) : afterIssuing is s o :=
  h ▸ afterIssuing_foldl_perform is s

/-- NOP edges, however many, leave the outputs as they are (R69). -/
theorem afterIssuing_replicate_nop (n : Nat) (s : State) : afterIssuing (List.replicate n .nop) s s.outputs :=
  afterIssuing_of_outputs (congrArg State.outputs (foldl_perform_replicate_nop n s))

/-- DBL in a state whose tweak has a known double and a known bit 127 (R70). -/
theorem exec_dbl_of_double_eq {s : State} {y : Tweak} {b : Bool} (hy : double s.t = y) (hb : s.t.getLsbD 127 = b) :
    exec .dbl s = .next { s with t := y, red := b } := by
  subst hy hb
  exact exec_dbl s

/-- DBL keeps a block whose tweak is 0 with nothing reduced, such as one that was reset (R70). -/
theorem perform_dbl_of_zero {s : State} (ht : s.t = 0) (hred : s.red = false) : s.perform .dbl = s := by
  have hd : double s.t = s.t := by rw [ht]; exact double_zero
  have hb : s.t.getLsbD 127 = s.red := by rw [ht, hred]; exact BitVec.getLsbD_zero
  rw [State.perform_dbl, hd, hb]
  rfl

theorem foldl_perform_replicate_of_fixed {s : State} {i : Instr} (h : s.perform i = s) (k : Nat) :
    (List.replicate k i).foldl State.perform s = s := by
  induction k with
  | zero => rfl
  | succ k ih => rw [List.replicate_succ, List.foldl_cons, h, ih]

/-- A load whose operand has an unclean bit is refused, and `din` is named (R46, R71, R72). -/
theorem step_load_unclean {s : State} {es : List HostEvent} {d : DinLevels} (c0 : Bool) (h : s.host = .edge :: es)
    (hpins : s.pins = Pins.ofCW (ctrlWord false true c0) d) (hd : ∃ l ∈ d.toList, l.clean = false) :
    step s = .refused (.notBinary .din) := by
  rw [Pins.ofCW_ctrlWord] at hpins
  have hdec : decode s.pins = .error .din := by
    rw [hpins, decode_eq_error_iff]
    exact .inr (.inr ⟨rfl, rfl, rfl, Level.clean_ofBit c0, hd⟩)
  rw [step_edge s es h, clockEdge_of_refused (s.hostRest es) .din hdec]

/-- Settles O15: the states after the two DBL, with the NOP between them dropped by `foldl_perform_replicate_nop`. -/
theorem nopHolds : Obligations.NopHolds := by
  refine ⟨decode_encode .nop, exec_nop, fun s n => afterIssuing_of_outputs ?_⟩
  rw [List.cons_append, List.foldl_cons, List.foldl_append, foldl_perform_replicate_nop]
  rfl

/-- Settles O16: Double by `double_eq_shift_xor`, its values by the table of R68, and the runs by the states that DBL
leaves after a load and after a reset. -/
theorem dblDoublesTheTweak : Obligations.DblDoublesTheTweak := by
  obtain ⟨hzero, htop, htopOne, -⟩ := doubleCornerCases
  refine ⟨decode_encode .dbl, fun s => exec_dbl_of_double_eq (double_eq_shift_xor s.t) rfl, fun s ht => ?_,
    fun s ht => ?_, fun s ht => ?_, fun s x k => ?_, fun s k => ?_⟩
  · exact exec_dbl_of_double_eq (y := s.t) (by rw [ht]; exact hzero) (by rw [ht]; exact BitVec.getLsbD_zero)
  · exact exec_dbl_of_double_eq (by rw [ht]; exact htop) (by rw [ht]; decide)
  · exact exec_dbl_of_double_eq (by rw [ht]; exact htopOne) (by rw [ht]; decide)
  · exact ⟨_, afterIssuing_foldl_perform _ s, foldl_perform_replicate_dbl k (s.perform (.ld x))⟩
  · exact afterIssuing_of_outputs (congrArg State.outputs
      (foldl_perform_replicate_of_fixed (perform_dbl_of_zero (s := s.perform .rst) rfl rfl) k))

/-- Settles O17: a load reads nothing of the state before it, and an unclean operand is refused by
`step_load_unclean`. -/
theorem ldLoadsTheOperand : Obligations.LdLoadsTheOperand := by
  refine ⟨fun x => decode_encode (.ld x) (dinOfTweak x), decode_ld_dinOfBytes, fun s x => exec_ld x s,
    fun s is x => afterIssuing_of_outputs ?_, fun s es d h hpins hd => step_load_unclean false h hpins hd⟩
  rw [List.foldl_append]
  rfl

/-- Settles O18: the operand is doubled once by LDD, and once more by each DBL. -/
theorem lddLoadsTheDouble : Obligations.LddLoadsTheDouble := by
  refine ⟨fun x => decode_encode (.ldd x) (dinOfTweak x), fun b => ?_, fun s x => ?_, fun s x k => ?_,
    fun s es d h hpins hd => step_load_unclean true h hpins hd⟩
  · rw [dinOfBytes_eq_dinOfTweak]
    exact decode_encode (.ldd (tweakOfBytes b)) (dinOfBytes b)
  · rw [exec_ldd, double_eq_shift_xor]
    rfl
  · exact ⟨_, afterIssuing_foldl_perform _ s, foldl_perform_replicate_dbl k (s.perform (.ldd x))⟩

/-- Settles O45: the draw by the step of a power-up, and NOP by `afterIssuing_replicate_nop`. -/
theorem powerUpDrawsTheState : Obligations.PowerUpDrawsTheState :=
  fun _ es h => ⟨(Transition.powerUp es h).step_eq, fun u n _ => afterIssuing_replicate_nop n u⟩

end Sys2Proof.Machine
end

section
/-! PROOFS. An edge that loads or resets forgets what the block held before it (R71, R72, R86, R90). -/

namespace Sys2Proof.Machine

/-- RESET and the loads write the whole block and read none of it. -/
theorem State.perform_eq_of_sameOutside {s₁ s₂ : State} (h : s₁.sameOutside s₂) {i : Instr}
    (hi : i = .rst ∨ i.operand?.isSome = true) : s₁.perform i = s₂.perform i := by
  obtain ⟨t₁, v₁, red₁, pins, host, draws⟩ := s₁
  obtain ⟨t₂, v₂, red₂, pins₂, host₂, draws₂⟩ := s₂
  obtain ⟨rfl, rfl, rfl⟩ := h
  cases i with
  | rst | ld x | ldd x => rfl
  | nop | dbl => simp [Instr.operand?] at hi

/-- The outputs after an edge are observed first, and the rest from the state that the edge leaves. -/
theorem observe_succ_of_edge {s u : State} {es : List HostEvent} (h : s.host = .edge :: es) (hstep : step s = .next u)
    (k : Nat) : observe (k + 1) s = u.outputs :: observe k u := by
  simp [observe, hstep, h]

/-- Settles O41: the edge leads both machines to one state. -/
theorem loadOrResetForgetsThePast : Obligations.LoadOrResetForgetsThePast := by
  intro s₁ s₂ es i ⟨hpins, hhost, hdraws⟩ h hd hi k
  have h₂ : s₂.host = .edge :: es := hhost.symm.trans h
  have hsame : (s₁.hostRest es).sameOutside (s₂.hostRest es) := ⟨hpins, rfl, hdraws⟩
  have hstep₁ := step_edge_of_decode h hd
  have hstep₂ := step_edge_of_decode h₂ (hpins ▸ hd)
  rw [← State.perform_eq_of_sameOutside hsame hi] at hstep₂
  exact ⟨by rw [run_succ_of_next _ k _ hstep₁, run_succ_of_next _ k _ hstep₂],
    by rw [observe_succ_of_edge h hstep₁, observe_succ_of_edge h₂ hstep₂]⟩

end Sys2Proof.Machine
end

section
/-! PROOFS. Reset, power-up and the two hazards: a wrong tweak (R97) and a tweak that was not loaded (R95). -/

namespace Sys2Proof.Machine

/-- A control word 1xx is RESET, whatever `din` carries (R42, R86). -/
theorem decode_rst_of_bits (c1 c0 : Bool) (d : DinLevels) :
    decode ⟨.high, Level.ofBit c1, Level.ofBit c0, d⟩ = .ok .rst :=
  decode_din_irrelevant (decode_of_bits true c1 c0 0) rfl d

/-- A reset edge after a reset edge changes nothing, so k of them do what one does (R89). -/
theorem foldl_perform_replicate_rst {k : Nat} (hk : 1 ≤ k) (s : State) :
    (List.replicate k Instr.rst).foldl State.perform s = s.perform .rst := by
  obtain ⟨m, rfl⟩ := Nat.exists_eq_add_of_le' hk
  exact foldl_perform_replicate_of_fixed (s := s.perform .rst) rfl m

/-- DBL and NOP, however many, double the tweak once for each DBL (R69, R70). -/
theorem foldl_perform_t_of_dbl_nop (ops : List Instr) : ∀ s : State, (∀ i ∈ ops, i = .dbl ∨ i = .nop) →
    (ops.foldl State.perform s).t = double^[ops.count .dbl] s.t := by
  induction ops with
  | nil => exact fun _ _ => rfl
  | cons i ops ih =>
    intro s hkind
    rw [List.forall_mem_cons] at hkind
    obtain ⟨-, ht⟩ := perform_dbl_or_nop hkind.1 ops s
    exact (ih (s.perform i) hkind.2).trans ht

theorem State.TweakInv.foldl_perform (is : List Instr) : ∀ {s : State}, s.TweakInv →
    (is.foldl State.perform s).TweakInv := by
  induction is with
  | nil => exact id
  | cons i is ih => exact fun h => ih (h.perform i)

/-- A block that was reset at any time meets the invariant, whatever it held before. -/
theorem tweakInv_foldl_perform_of_rst_mem {is : List Instr} (h : Instr.rst ∈ is) (s : State) :
    (is.foldl State.perform s).TweakInv := by
  obtain ⟨before, after, rfl⟩ := List.append_of_mem h
  have hrst (u : State) : (u.perform .rst).TweakInv := by simp [State.TweakInv]
  rw [List.foldl_append, List.foldl_cons]
  exact State.TweakInv.foldl_perform after (hrst _)

/-- Without a reset and without a load that counts, only DBL and NOP are left. -/
theorem dbl_or_nop_of_not_loaded {is : List Instr} (hrst : Instr.rst ∉ is) (hload : ¬ LoadedSinceReset is) :
    ∀ i ∈ is, i = .dbl ∨ i = .nop := by
  intro i hi
  by_cases hnop : i = .nop
  · exact .inr hnop
  rcases Instr.writer_of_ne_nop hnop with rfl | hdbl | hoperand
  · exact absurd hi hrst
  · exact .inl hdbl
  · obtain ⟨before, after, rfl⟩ := List.append_of_mem hi
    exact absurd ⟨before, i, after, rfl, hoperand, fun h => hrst (by simp [h])⟩ hload

/-- A power-up, any operations and then a load: the take goes through and shows what the load left (R88). -/
theorem runsTo_powerUp_load_take {s : State} {idle : DinLevels} {is : List Instr} {i : Instr} {es : List HostEvent}
    (h : s.host = .powerUp :: issueAll idle (is ++ [i]) ++ .takeTweak :: es) (hi : i.operand?.isSome = true) :
    ∃ w u : State, runsTo (2 * is.length + 4) s u ∧ u.outputs = (w.perform i).outputs ∧ u.host = es := by
  obtain ⟨p, hpower, hp⟩ : ∃ p, step s = .next p ∧ p.host = issueAll idle (is ++ [i]) ++ .takeTweak :: es :=
    ⟨_, (Transition.powerUp _ h).step_eq, rfl⟩
  obtain ⟨u, hrun, hout, hhost⟩ := runsTo_issueAll idle _ _ p hp
  rw [List.foldl_append] at hout
  have hv : u.v = true := (congrArg Outputs.tv hout).trans ((State.perform_v_iff _ i).2 (.inl hi))
  have htake := runsTo_succ_of_step (Transition.takeTweak es hhost hv).step_eq (run_zero _)
  have hlen : 2 * is.length + 4 = 2 * (is ++ [i]).length + 1 + 1 := by
    rw [List.length_append, List.length_singleton, Nat.mul_add]
  exact ⟨_, u.hostRest es, hlen ▸ runsTo_succ_of_step hpower (runsTo_add hrun htake), hout, rfl⟩

/-- Settles O13: the words 1xx by `decode_rst_of_bits`; RESET reads nothing of the state before it. -/
theorem rstClearsTheBlock : Obligations.RstClearsTheBlock := by
  refine ⟨decode_rst_of_bits, exec_rst, fun s es p _ h => step_drive s p es h, fun s is => afterIssuing_of_outputs ?_⟩
  rw [List.foldl_append]
  rfl

/-- Settles O42: DBL is injective, so equal tweaks after the commands come from equal values; a load reads neither. -/
theorem errorsPropagate : Obligations.ErrorsPropagate := by
  refine ⟨fun s x y ops hne hkind => ?_, fun s x y z ops => ?_⟩
  · have hx := foldl_perform_t_of_dbl_nop ops { s with t := x } hkind
    have hy := foldl_perform_t_of_dbl_nop ops { s with t := y } hkind
    exact ⟨_, _, afterIssuing_foldl_perform ops _, afterIssuing_foldl_perform ops _, fun htout =>
      hne (double_injective.iterate _ (hx.symm.trans (htout.trans hy)))⟩
  · have hload (u : State) : ((ops ++ [Instr.ld z]).foldl State.perform u).outputs = ⟨z, true, false⟩ := by
      rw [List.foldl_append]
      rfl
    exact ⟨_, afterIssuing_of_outputs (hload _), afterIssuing_of_outputs (hload _)⟩

/-- Settles O44: after a reset by the invariant of a block that was reset, without one because only DBL and NOP are
left; the take by the two cases of `takeTweak`, and a fault stays by `run_succ_of_stop`. -/
theorem takingAnUnloadedTweakFaults : Obligations.TakingAnUnloadedTweakFaults := by
  refine ⟨fun is s => ⟨_, afterIssuing_foldl_perform is s, fun htv => ⟨fun hrst => ?_, fun hrst => ?_⟩⟩,
    fun s es h hv => ⟨rfl, ?_⟩, fun s es h hv => (Transition.takeTweak es h hv).step_eq⟩
  · obtain ⟨hzero, -⟩ := tweakInv_foldl_perform_of_rst_mem hrst s
    exact (hzero htv).1
  · have hload : ¬ LoadedSinceReset is := fun hloaded =>
      absurd (((foldl_perform_v_iff is s).2 (.inl hloaded)).symm.trans htv) (by decide)
    exact foldl_perform_t_of_dbl_nop is s (dbl_or_nop_of_not_loaded hrst hload)
  · exact run_succ_of_stop (isStop_fault _) (Stop.fault (by simp [h]) hv).step_eq

/-- Settles O46: `runsTo_powerUp_load_take` with the reset edges as the operations before the load. -/
theorem bootSequenceLoadsATweak : Obligations.BootSequenceLoadsATweak := by
  intro s idle es x k _
  have hlen : (List.replicate k Instr.rst).length = k := List.length_replicate
  refine ⟨fun h => ?_, fun h => ?_⟩
  · obtain ⟨w, u, hrun, hout, hhost⟩ := runsTo_powerUp_load_take h rfl
    exact ⟨u, hlen ▸ hrun, congrArg Outputs.tout hout, congrArg Outputs.tv hout, hhost⟩
  · obtain ⟨w, u, hrun, hout, hhost⟩ := runsTo_powerUp_load_take h rfl
    exact ⟨u, hlen ▸ hrun, congrArg Outputs.tout hout, congrArg Outputs.tv hout, hhost⟩

/-- Settles O47: k reset edges leave what one leaves, and the next operation starts there. -/
theorem oneResetEdgeIsEnough : Obligations.OneResetEdgeIsEnough := by
  intro s k hk
  have hreset := foldl_perform_replicate_rst hk s
  refine ⟨afterIssuing_of_outputs (congrArg State.outputs hreset), fun i =>
    ⟨_, exec_eq_next i _, afterIssuing_of_outputs ?_⟩⟩
  rw [List.foldl_append, hreset]
  rfl

end Sys2Proof.Machine
end
